-- ==== Sys2Proof/Word.lean ====
section
/-! DEFINITION. The bit vectors of the spec (00_scope.md R11, R13): `bits8`, `bits9`, `bits32`. `uint v` is `v.toNat` and
`sint v` is `v.toInt`. -/

namespace Sys2Proof

/-- `bits8`: a memory cell, an opcode, an operand byte or a register index (`MEM_CELL_WIDTH`, `OPCODE_WIDTH`, `CR_WIDTH`). -/
abbrev Byte := BitVec 8

/-- `bits9`: the program counter and the addresses a fault records (`PC_WIDTH`, R27, R37). -/
abbrev Pc := BitVec 9

/-- `bits32`: a general register (`XLEN`, R22). -/
abbrev Word := BitVec 32

end Sys2Proof
end

