-- ==== Sys2Proof/Config.lean ====
section
/-! DEFINITION. The implementation parameters of 00_scope.md R11 that the model reads as numbers.
The widths of that table stand in the types of `Sys2Proof/Word.lean`. No parameter is left free: R11 says that the rules
hold only at these values. At the end stand the two free values, which the spec does not state (log entry 3). -/

namespace Sys2Proof

/-- `MEM_SIZE` (R11, R21): byte cells in memory, addresses 0 to 255. -/
@[simp] abbrev Config.memSize : Nat := 256

/-- `CR_RESET` (R11, R32): the current register pointer after reset, the spec's own decision D8. -/
@[simp] abbrev Config.crReset : Nat := 0

/-- The most bytes an instruction has (R60). -/
@[simp] abbrev Config.maxLength : Nat := 3

/-- `TICK_PERIOD` in milliseconds (R11, R160). No rule depends on it and the model has no time (R42, R189), so nothing
reads it. -/
def Config.tickPeriodMs : Nat := 500

/-- FREE VALUE (DESIGN CHOICE, log entry 3): the 8 data bits of `fault.opcode` after a fault entry that clears its valid bit
(R153 says only "or invalid"). Nothing is known of it. -/
opaque Config.freeOpcode : Nat → Byte

/-- FREE VALUE (DESIGN CHOICE, log entry 3): the 9 data bits of `fault.addr` after a fault entry that clears its valid bit
(R153). Nothing is known of it. -/
opaque Config.freeAddr : Nat → Pc

end Sys2Proof
end

