-- ==== Sys2Proof/Syntax.lean ====
section
/-! DEFINITION. The instructions of the CA1 ISA as syntax: one constructor per row of the opcode map (30_encoding.md R64),
its operand bytes as they stand in memory (R62). -/

namespace Sys2Proof

/-- An instruction with its operand bytes. The destination register is never part of it: it is the register `cr` selects
(R62). -/
inductive Instr where
  /-- R141: stop the run. -/
  | halt
  /-- R100: the current register pointer becomes 0. -/
  | init
  /-- R101: the current register pointer becomes `i`. -/
  | set (i : Byte)
  /-- R110: the current register becomes the literal `n`. -/
  | save (n : Byte)
  /-- R118: product of registers `a` and `b`. -/
  | mul (a b : Byte)
  /-- R136: emit the current register. -/
  | prn
  /-- R122: register `a` less register `b`. -/
  | sub (a b : Byte)
  /-- R126: sum of registers `a` and `b`. -/
  | add (a b : Byte)
  /-- R130: register `a` divided by register `b`. -/
  | div (a b : Byte)
  deriving DecidableEq, Repr

/-- The handlers the dispatch table names (R39), one per instruction (R99). -/
inductive Handler where
  | halt | init | set | save | mul | prn | sub | add | div
  deriving DecidableEq, Repr

/-- The three instruction formats (R61): no operand byte, one, or two. -/
inductive Format where
  | f1 | f2 | f3
  deriving DecidableEq, Repr

/-- How many operand bytes follow the opcode byte (R61). -/
def Format.operands : Format → Nat
  | .f1 => 0
  | .f2 => 1
  | .f3 => 2

/-- The handler that runs an instruction (R99). -/
def Instr.handler : Instr → Handler
  | .halt => .halt
  | .init => .init
  | .set _ => .set
  | .save _ => .save
  | .mul _ _ => .mul
  | .prn => .prn
  | .sub _ _ => .sub
  | .add _ _ => .add
  | .div _ _ => .div

/-- The format of a handler's instruction (R61, R64). -/
def Handler.format : Handler → Format
  | .halt => .f1
  | .init => .f1
  | .set => .f2
  | .save => .f2
  | .mul => .f3
  | .prn => .f1
  | .sub => .f3
  | .add => .f3
  | .div => .f3

/-- The operand bytes of an instruction, in the order they lie in memory (R61). -/
def Instr.operandBytes : Instr → List Byte
  | .halt => []
  | .init => []
  | .set i => [i]
  | .save n => [n]
  | .mul a b => [a, b]
  | .prn => []
  | .sub a b => [a, b]
  | .add a b => [a, b]
  | .div a b => [a, b]

/-- The number of bytes an instruction occupies (R60, R64; 1 for HALT). -/
def Instr.length (i : Instr) : Nat := 1 + i.operandBytes.length

/-- The amount the instruction adds to `pc` (10_state.md R29): its length, but nothing for HALT. -/
def Instr.pcAdvance : Instr → Nat
  | .halt => 0
  | .init => 1
  | .set _ => 2
  | .save _ => 2
  | .mul _ _ => 3
  | .prn => 1
  | .sub _ _ => 3
  | .add _ _ => 3
  | .div _ _ => 3

end Sys2Proof
end

