-- ==== Sys2Proof/WellFormed.lean ====
section
/-! DEFINITION. The checks on instructions and programs. An instruction by itself is always well formed, because no operand
byte value is illegal (30_encoding.md R63) and `Byte` holds exactly those values; what can be wrong is where it stands
(R68) and how long a program is (70_reset_and_hazards.md R185). -/

namespace Sys2Proof

/-- The instruction placed at address `p` has all its bytes in memory (R30, R68). -/
def Instr.fitsAt (i : Instr) (p : Nat) : Bool := decide (p + i.length ≤ Config.memSize)

/-- The Loader may load a program of at most 256 bytes (R185). -/
def programFits (bytes : List Byte) : Bool := decide (bytes.length ≤ Config.memSize)

end Sys2Proof
end

