-- ==== Sys2Proof/Decode.lean ====
section
/-! DEFINITION. The dispatch table `opcode_dispatch_lut` (10_state.md R39), the decoder over bytes, which rejects by name,
and the encoder (30_encoding.md R60 to R68). -/

namespace Sys2Proof

/-- A valid entry of the dispatch table (R39): handler, length in bytes, operand count. -/
structure LutEntry where
  handler : Handler
  length : Nat
  operands : Nat
  deriving DecidableEq, Repr

/-- Why a list of bytes is no instruction. -/
inductive Reject where
  /-- There is no byte at all. -/
  | noOpcode
  /-- The dispatch table has no handler for the opcode (R67). -/
  | noHandler (op : Byte)
  /-- Operand byte number `k` (1 or 2) of the instruction is missing (R68). -/
  | noOperand (op : Byte) (k : Nat)
  deriving DecidableEq, Repr

/-- The rows of the opcode map, in opcode order (R64). HALT occupies one byte. -/
def opcodeMap : List (Byte × LutEntry) :=
  [(0x00, ⟨.halt, 1, 0⟩), (0x01, ⟨.init, 1, 0⟩), (0x02, ⟨.set, 2, 1⟩), (0x04, ⟨.save, 2, 1⟩), (0x05, ⟨.mul, 3, 2⟩),
   (0x06, ⟨.prn, 1, 0⟩), (0x07, ⟨.sub, 3, 2⟩), (0x08, ⟨.add, 3, 2⟩), (0x09, ⟨.div, 3, 2⟩)]

/-- `LUT[op]` (R39, R83): one lookup of the whole opcode byte; `none` is "no handler". -/
def lut (op : Byte) : Option LutEntry := opcodeMap.lookup op

/-- Format F2 (R61): one operand byte after the opcode. -/
def decodeF2 (op : Byte) (mk : Byte → Instr) : List Byte → Except Reject (Instr × List Byte)
  | [] => .error (.noOperand op 1)
  | i :: rest => .ok (mk i, rest)

/-- Format F3 (R61): two operand bytes, `a` then `b`. -/
def decodeF3 (op : Byte) (mk : Byte → Byte → Instr) : List Byte → Except Reject (Instr × List Byte)
  | [] => .error (.noOperand op 1)
  | [_] => .error (.noOperand op 2)
  | a :: b :: rest => .ok (mk a b, rest)

/-- The operand bytes of a handler's instruction (R62). -/
def decodeOperands (op : Byte) (h : Handler) (rest : List Byte) : Except Reject (Instr × List Byte) :=
  match h with
  | .halt => .ok (.halt, rest)
  | .init => .ok (.init, rest)
  | .set => decodeF2 op .set rest
  | .save => decodeF2 op .save rest
  | .mul => decodeF3 op .mul rest
  | .prn => .ok (.prn, rest)
  | .sub => decodeF3 op .sub rest
  | .add => decodeF3 op .add rest
  | .div => decodeF3 op .div rest

/-- Decode one instruction from the front of a list of bytes: the instruction and the bytes after it, or why there is none
(R66, R67, R68). -/
def decode : List Byte → Except Reject (Instr × List Byte)
  | [] => .error .noOpcode
  | op :: rest =>
    match lut op with
    | none => .error (.noHandler op)
    | some e => decodeOperands op e.handler rest

/-- The opcode byte of each handler, from the table of R64. -/
def Handler.opcode : Handler → Byte
  | .halt => 0x00
  | .init => 0x01
  | .set => 0x02
  | .save => 0x04
  | .mul => 0x05
  | .prn => 0x06
  | .sub => 0x07
  | .add => 0x08
  | .div => 0x09

/-- The opcode byte of an instruction (R64). -/
def Instr.opcode (i : Instr) : Byte := i.handler.opcode

/-- The bytes of an instruction, lowest address first (R60, R69). -/
def encode (i : Instr) : List Byte := i.opcode :: i.operandBytes

/-- Byte `k` of the number `w` (bit 0 least significant), and 0 where the first `nbits` bits do not reach it. -/
def tableByte (nbits w k : Nat) : Byte := if 8 * k < nbits then BitVec.ofNat 8 (w >>> (8 * k)) else 0

/-- The bytes of an instruction numbered as the opcode table numbers its bits: bits 7..0 are the first byte. Bytes above
`nbits`, up to the longest instruction, are 0. -/
def tableBytes (nbits w : Nat) : List Byte := [tableByte nbits w 0, tableByte nbits w 1, tableByte nbits w 2]

/-- The instruction the decoder reads from the word `w` of `nbits` bits. -/
def decodeTableWord (nbits w : Nat) : Option Instr :=
  match decode (tableBytes nbits w) with
  | .ok (i, _) => some i
  | .error _ => none

end Sys2Proof
end

