-- ==== Sys2Proof/Machine/Alu.lean ====
section
/-! DEFINITION. The arithmetic of 43_arithmetic.md on 32-bit patterns: exact integers, narrowed once (00_scope.md R13). No
operation sets a flag (10_state.md R34). -/

namespace Sys2Proof.Machine

/-- `bits32(n)` (R13): the 32-bit pattern of an integer modulo 2^32. -/
def bits32 (n : Int) : Word := BitVec.ofInt 32 n

/-- `zext_32` (R13): a byte as a 32-bit pattern. -/
def zext32 (b : Byte) : Word := b.zeroExtend 32

/-- R118: the product modulo 2^32. -/
def aluMul (u v : Word) : Word := bits32 ((u.toNat : Int) * (v.toNat : Int))

/-- R122: the difference modulo 2^32. -/
def aluSub (u v : Word) : Word := bits32 ((u.toNat : Int) - (v.toNat : Int))

/-- R126: the sum modulo 2^32. -/
def aluAdd (u v : Word) : Word := bits32 ((u.toNat : Int) + (v.toNat : Int))

/-- R130, R132, R133: the signed quotient rounded toward zero, modulo 2^32. The divisor is not 0 where it is used (R131). -/
def aluDiv (u v : Word) : Word := bits32 (u.toInt.tdiv v.toInt)

end Sys2Proof.Machine
end

