-- ==== Sys2Proof/Machine/State.lean ====
section
/-! DEFINITION. The whole architectural state of the core (10_state.md R20), its values after reset
(70_reset_and_hazards.md R176), and the reasons a step or a host command can stop. The dispatch table of R20 is the constant
`lut` of `Sys2Proof/Decode.lean`. -/

namespace Sys2Proof.Machine

/-- The run state (R35). -/
inductive RunState where
  | idle | running | halted | faulted
  deriving DecidableEq, Repr

/-- `fault.kind` (R37, 60_exceptions.md R150). -/
inductive FaultKind where
  | none | invalidInstruction | outOfBounds | divideByZero
  deriving DecidableEq, Repr

/-- The fault record (R37): `opcode` is 8 bits and a valid bit, `addr` 9 bits and a valid bit. -/
structure FaultRecord where
  kind : FaultKind
  pc : Pc
  opcode : Byte
  opcodeValid : Bool
  addr : Pc
  addrValid : Bool
  deriving DecidableEq, Repr

/-- A fault a tick raises, with the information its record takes (60_exceptions.md R150 to R154). -/
inductive Raise where
  /-- R151: the opcode has no handler. -/
  | invalidInstruction (op : Byte)
  /-- R152: a read at an address of 256 or more; `op` is absent when the opcode fetch itself is out of range. -/
  | outOfBounds (op : Option Byte) (addr : Nat)
  /-- R154: a division by zero. -/
  | divideByZero (op : Byte)
  deriving DecidableEq, Repr

/-- Memory contents: (address, byte) pairs with rising addresses and no zero byte; an address not listed reads as 0x00, the
reset contents of R21. -/
abbrev Memory := List Host.Cell

/-- The architectural state (R20). -/
structure State where
  /-- R21: the memory array. -/
  mem : Memory
  /-- R22: the register file, R0 to R255. -/
  x : Vector Word 256
  /-- R27: the program counter. -/
  pc : Pc
  /-- R32: the current register pointer. -/
  cr : Byte
  /-- R35: the run state. -/
  state : RunState
  /-- R36: the clock enable. -/
  clkEn : Bool
  /-- R37: the fault record. -/
  fault : FaultRecord
  /-- R38: the words PRN has emitted, oldest first. -/
  out : List Word
  /-- The MODEL's own field, no state of the spec: how many fault entries have drawn a free value (log entry 3). -/
  draws : Nat
  deriving DecidableEq, Repr

/-- Reasons a step stops outside the spec's own states. There are none: every fault of the spec is entered as a next state
with `state = Faulted` (60_exceptions.md R153), and a tick that may not execute changes nothing (R80). Safe: no step raises
one, so nothing is hidden behind it. -/
inductive Fault where
  deriving DecidableEq, Repr

/-- Reasons the model gives no step. -/
inductive Refusal where
  /-- Raised by an arm of `exec` whose instruction has no meaning yet; no arm raises it now. Safe: the model stops. -/
  | notModelled (mnemonic : String)
  /-- Raised by the host command `poke` while Running (40_fetch_decode_execute.md R91, R166). Safe: the spec gives that
  command no step. -/
  | pokeWhileRunning
  /-- Raised by the signal layer when more than one act is asserted at once (R87, R96, R188). Safe: the spec puts such a host
  outside the contract. -/
  | simultaneousActs
  /-- Raised by the boot sequence for a program of more than 256 bytes (70_reset_and_hazards.md R185). Safe: the spec does
  not load it. -/
  | programTooLong
  deriving DecidableEq, Repr

/-- The fault record after reset: kind None, pc 0, opcode 0 and invalid, address 0 and invalid (R37). -/
def FaultRecord.clear : FaultRecord :=
  { kind := .none, pc := 0, opcode := 0, opcodeValid := false, addr := 0, addrValid := false }

/-- The state after reset (R176): nothing is unspecified. The 0 of `draws` is the model's (DESIGN CHOICE, log entry 3). -/
def State.reset : State :=
  { mem := []
    x := Vector.replicate 256 0
    pc := 0
    cr := BitVec.ofNat 8 Config.crReset
    state := .idle
    clkEn := false
    fault := FaultRecord.clear
    out := []
    draws := 0 }

end Sys2Proof.Machine
end

