-- ==== Sys2Proof/Machine/Ops.lean ====
section
/-! DEFINITION. The named operations over memory, registers and the control state (00_scope.md R14), and fault entry
(60_exceptions.md R153). There is no return from a fault (R156): only reset leaves the Faulted state. -/

namespace Sys2Proof.Machine

/-- The canonical form: addresses strictly rising, each below 256, no listed byte 0x00. -/
abbrev Memory.wf (m : Memory) : Prop :=
  m.Pairwise (fun c d => c.1 < d.1) ∧ ∀ c ∈ m, c.1 < Config.memSize ∧ c.2 ≠ 0

/-- `mem[a]` (R14): the byte in cell `a`; an unlisted cell holds its reset value 0x00 (R21). -/
def Memory.read : Memory → Nat → Byte
  | [], _ => 0
  | (b, w) :: m, a => if a = b then w else Memory.read m a

/-- List the byte `v` at address `a` in front of `m`, unless it is what an unlisted address reads as. -/
def Memory.cons (a : Nat) (v : Byte) (m : Memory) : Memory := if v = 0 then m else (a, v) :: m

/-- Set cell `a` to `v`, keeping the canonical form. -/
def Memory.write : Memory → Nat → Byte → Memory
  | [], a, v => Memory.cons a v []
  | (b, w) :: m, a, v =>
    if a < b then Memory.cons a v ((b, w) :: m)
    else if a = b then Memory.cons a v m
    else (b, w) :: Memory.write m a v

/-- The byte of memory cell `a`. -/
def State.readByte (s : State) (a : Nat) : Byte := Memory.read s.mem a

/-- Set memory cell `a`. Only the host does so (20_memory.md R48, R49). -/
def State.storeByte (s : State) (a : Nat) (v : Byte) : State := { s with mem := Memory.write s.mem a v }

/-- Set the cells from address `a` upward to the bytes of a list, leaving out those that would lie past the top. -/
def State.storeBytes (s : State) (a : Nat) : List Byte → State
  | [] => s
  | v :: rest =>
    if a < Config.memSize then State.storeBytes (s.storeByte a v) (a + 1) rest else s

/-- `x[i]` (R14, R22): every index selects a register (R33), and none is hardwired. -/
def State.readReg (s : State) (i : Byte) : Word := s.x[i.toNat]'(i.isLt)

/-- `x[i] <- v` (R14). -/
def State.writeReg (s : State) (i : Byte) (v : Word) : State := { s with x := s.x.set i.toNat v i.isLt }

/-- `x[cr]`, the current register (R32). -/
def State.readCur (s : State) : Word := s.readReg s.cr

/-- `x[cr] <- v`. -/
def State.writeCur (s : State) (v : Word) : State := s.writeReg s.cr v

/-- `cr <- i`. -/
def State.setCr (s : State) (i : Byte) : State := { s with cr := i }

/-- `pc <- p + w` (10_state.md R28, R30). -/
def State.advance (s : State) (w : Nat) : State := { s with pc := s.pc + BitVec.ofNat 9 w }

/-- `Emit(v)` (R14, R38): append to the observation channel. -/
def State.emit (s : State) (v : Word) : State := { s with out := s.out ++ [v] }

/-- The effect of HALT on the run (44_output_and_control.md R141). -/
def State.halt (s : State) : State := { s with state := .halted, clkEn := false }

/-- The record a fault of the tick at `p` leaves (R151, R152, R154). A field whose valid bit is clear holds the free value
numbered `n` (log entry 3). -/
def Raise.record (p : Pc) (n : Nat) : Raise → FaultRecord
  | .invalidInstruction op =>
    { kind := .invalidInstruction, pc := p, opcode := op, opcodeValid := true, addr := Config.freeAddr n, addrValid := false }
  | .outOfBounds (some op) a =>
    { kind := .outOfBounds, pc := p, opcode := op, opcodeValid := true, addr := BitVec.ofNat 9 a, addrValid := true }
  | .outOfBounds none a =>
    { kind := .outOfBounds, pc := p, opcode := Config.freeOpcode n, opcodeValid := false, addr := BitVec.ofNat 9 a,
      addrValid := true }
  | .divideByZero op =>
    { kind := .divideByZero, pc := p, opcode := op, opcodeValid := true, addr := Config.freeAddr n, addrValid := false }

/-- Fault entry (R153): the run stops in Faulted with the record written, and `x`, `cr`, `pc`, `out` and `mem` keep their
values. The next fault entry draws another free value. -/
def State.enterFault (s : State) (f : Raise) : State :=
  { s with state := .faulted, clkEn := false, fault := f.record s.pc s.draws, draws := s.draws + 1 }

/-- Reset (70_reset_and_hazards.md R175): every piece of the spec's state takes its reset value. The model's own `draws` goes
on, so that free values drawn before and after a reset are unrelated (log entry 3). -/
def State.resetCore (s : State) : State := { State.reset with draws := s.draws }

/-- A tick executes only in Running with the clock enabled (40_fetch_decode_execute.md R80). -/
def State.ticking (s : State) : Bool := s.state == .running && s.clkEn

/-- `start()` (R92): from Idle the run begins, in Running the clock is enabled, in Halted and Faulted nothing happens. -/
def State.startRun (s : State) : State :=
  match s.state with
  | .idle => { s with state := .running, clkEn := true }
  | .running => { s with clkEn := true }
  | .halted => s
  | .faulted => s

/-- `stop()` (R93): the clock is disabled and nothing else changes. -/
def State.stopRun (s : State) : State := { s with clkEn := false }

/-- The address an instruction of the longest length is placed at so that the next tick fetches it: `pc` where its bytes
fit below 256, else 0. -/
def State.placeAddress (s : State) : Nat :=
  if s.pc.toNat + Config.maxLength ≤ Config.memSize then s.pc.toNat else 0

/-- `s` with an instruction's bytes where the next tick fetches, and with that tick enabled (R80). -/
def State.place (s : State) (bytes : List Byte) : State :=
  { s.storeBytes s.placeAddress bytes with pc := BitVec.ofNat 9 s.placeAddress, state := .running, clkEn := true }

/-- The run-state code on the `state` pins (R35). -/
def RunState.code : RunState → BitVec 2
  | .idle => 0
  | .running => 1
  | .halted => 2
  | .faulted => 3

/-- The fault code (R150). -/
def FaultKind.code : FaultKind → BitVec 2
  | .none => 0
  | .invalidInstruction => 1
  | .outOfBounds => 2
  | .divideByZero => 3

end Sys2Proof.Machine
end

