-- ==== Sys2Proof/Machine/Operands.lean ====
section
/-! DEFINITION. The operand fetches of the handlers (20_memory.md R46, R50; 43_arithmetic.md R115; 60_exceptions.md R155). An
instruction reaches its handler with its operand bytes decoded; what is left to the handler is the check that those bytes lie
in memory. -/

namespace Sys2Proof.Machine

/-- The first address of the `n` consecutive reads from `a` that is 256 or more, if any: the read that raises `OutOfBounds`
(R50). -/
def firstOutOfRange (a : Nat) : Nat → Option Nat
  | 0 => none
  | n + 1 => if a < Config.memSize then firstOutOfRange (a + 1) n else some a

/-- The first operand fetch that fails, of the `n` fetches at `p + 1` upward (R115). -/
def State.missingOperand (s : State) (n : Nat) : Option Nat := firstOutOfRange (s.pc.toNat + 1) n

/-- Fetch the `n` operand bytes of the instruction with opcode `op`, then go on with `next`; a fetch out of range raises
`OutOfBounds` and nothing else happens (R152, R153). -/
def withOperands (op : Byte) (n : Nat) (s : State) (next : State) : State :=
  match s.missingOperand n with
  | none => next
  | some a => s.enterFault (.outOfBounds (some op) a)

end Sys2Proof.Machine
end

