-- ==== Sys2Proof/Machine/Arithmetic.lean ====
section
/-! DEFINITION. The arithmetic instructions MUL, SUB, ADD and DIV (43_arithmetic.md). -/

namespace Sys2Proof.Machine

/-- What the four share (R115): the current register becomes `f` of registers `a` and `b`, both read first (R26). -/
def State.combine (s : State) (f : Word → Word → Word) (a b : Byte) : State :=
  (s.writeCur (f (s.readReg a) (s.readReg b))).advance 3

/-- MUL (R118). -/
def execMul (a b : Byte) (s : State) : Host.Outcome State Fault Refusal :=
  .next (withOperands Handler.mul.opcode 2 s (s.combine aluMul a b))

/-- SUB (R122). -/
def execSub (a b : Byte) (s : State) : Host.Outcome State Fault Refusal :=
  .next (withOperands Handler.sub.opcode 2 s (s.combine aluSub a b))

/-- ADD (R126). -/
def execAdd (a b : Byte) (s : State) : Host.Outcome State Fault Refusal :=
  .next (withOperands Handler.add.opcode 2 s (s.combine aluAdd a b))

/-- DIV (R130): the operand fetches are checked first, then the divisor (R131, 60_exceptions.md R155). -/
def execDiv (a b : Byte) (s : State) : Host.Outcome State Fault Refusal :=
  .next (withOperands Handler.div.opcode 2 s
    (if s.readReg b = 0 then s.enterFault (.divideByZero Handler.div.opcode) else s.combine aluDiv a b))

end Sys2Proof.Machine
end

