-- ==== Sys2Proof/Machine/DataMovement.lean ====
section
/-! DEFINITION. The data-movement instruction SAVE (42_data_movement.md). -/

namespace Sys2Proof.Machine

/-- SAVE (R110). -/
def execSave (n : Byte) (s : State) : Host.Outcome State Fault Refusal :=
  .next (withOperands Handler.save.opcode 1 s ((s.writeCur (zext32 n)).advance 2))

end Sys2Proof.Machine
end

