-- ==== Sys2Proof/Machine/OutputControl.lean ====
section
/-! DEFINITION. The output and control instructions PRN and HALT (44_output_and_control.md). -/

namespace Sys2Proof.Machine

/-- PRN (R136). -/
def execPrn (s : State) : Host.Outcome State Fault Refusal := .next ((s.emit s.readCur).advance 1)

/-- HALT (R141): the run stops and `pc` keeps the address of the HALT. -/
def execHalt (s : State) : Host.Outcome State Fault Refusal := .next s.halt

/-- How a host shows an emitted word (R137): signed decimal. -/
def signedDecimal (v : Word) : String := toString v.toInt

end Sys2Proof.Machine
end

