-- ==== Sys2Proof/Machine/RegisterPointer.lean ====
section
/-! DEFINITION. The current-register-pointer instructions INIT and SET (41_register_pointer.md). -/

namespace Sys2Proof.Machine

/-- INIT (R100). -/
def execInit (s : State) : Host.Outcome State Fault Refusal := .next ((s.setCr 0).advance 1)

/-- SET (R101). -/
def execSet (i : Byte) (s : State) : Host.Outcome State Fault Refusal :=
  .next (withOperands Handler.set.opcode 1 s ((s.setCr i).advance 2))

end Sys2Proof.Machine
end

