-- ==== Sys2Proof/Machine/Dispatch.lean ====
section
/-! DEFINITION. The choice among the nine handlers (40_fetch_decode_execute.md R85, R99). -/

namespace Sys2Proof.Machine

def exec (i : Instr) (s : State) : Host.Outcome State Fault Refusal :=
  match i with
  | .halt => Sys2Proof.Machine.execHalt s
  | .init => Sys2Proof.Machine.execInit s
  | .set r => Sys2Proof.Machine.execSet r s
  | .save n => Sys2Proof.Machine.execSave n s
  | .mul a b => Sys2Proof.Machine.execMul a b s
  | .prn => Sys2Proof.Machine.execPrn s
  | .sub a b => Sys2Proof.Machine.execSub a b s
  | .add a b => Sys2Proof.Machine.execAdd a b s
  | .div a b => Sys2Proof.Machine.execDiv a b s

end Sys2Proof.Machine
end

