-- ==== Sys2Proof/Machine/Fetch.lean ====
section
/-! DEFINITION. Fetch and decode of one tick (40_fetch_decode_execute.md R81 to R84), with the faults of 60_exceptions.md R155
numbers 1 to 4. -/

namespace Sys2Proof.Machine

/-- The bytes in the cells from `a` upward, at most `n` of them and none past address 255 (20_memory.md R46, R50). -/
def State.bytesFrom (s : State) (a : Nat) : Nat → List Byte
  | 0 => []
  | n + 1 => if a < Config.memSize then s.readByte a :: State.bytesFrom s (a + 1) n else []

/-- The bytes from the program counter on, as many as the longest instruction has. -/
def State.fetchBytes (s : State) : List Byte := s.bytesFrom s.pc.toNat Config.maxLength

/-- The fault that bytes fetched at `p` raise when they are no instruction: an opcode fetch out of range (R82), an opcode
without handler (R84), or operand fetch `k` out of range at `p + k` (R68, R115). -/
def rejectRaise (p : Pc) : Reject → Raise
  | .noOpcode => .outOfBounds none p.toNat
  | .noHandler op => .invalidInstruction op
  | .noOperand op k => .outOfBounds (some op) (p.toNat + k)

/-- The instruction at the program counter, or the fault the tick raises instead. -/
def State.fetch (s : State) : Except Raise Instr :=
  match decode s.fetchBytes with
  | .ok (i, _) => .ok i
  | .error r => .error (rejectRaise s.pc r)

end Sys2Proof.Machine
end

