-- ==== Sys2Proof/Machine/Step.lean ====
section
/-! DEFINITION. One tick (40_fetch_decode_execute.md R80, R81), and the state whose next tick runs a given instruction. -/

namespace Sys2Proof.Machine

/-- One tick (R81): nothing unless the tick may execute (R80); else fetch and decode, and either fault entry (R153) or the
handler (R85). -/
def step (s : State) : Host.Outcome State Fault Refusal :=
  match s.ticking with
  | false => .next s
  | true =>
    match s.fetch with
    | .ok i => exec i s
    | .error f => .next (s.enterFault f)

/-- `s` with the table's word `w` of `nbits` bits stored where the next tick fetches, and that tick enabled. It stands for the
host's load and `start()` (70_reset_and_hazards.md R178). -/
def State.withFetchWord (s : State) (nbits w : Nat) : State := s.place (tableBytes nbits w)

end Sys2Proof.Machine
end

