-- ==== Sys2Proof/Machine/HostInterface.lean ====
section
/-! DEFINITION. What the surroundings can do to the core between two ticks: the host commands
(40_fetch_decode_execute.md R91 to R95), reset (70_reset_and_hazards.md R175), the boot order (R178) and the signals (R96). -/

namespace Sys2Proof.Machine

/-- A host command (R91), or reset (R175). -/
inductive Command where
  | start
  | stop
  | tick
  | poke (a : Nat) (v : Byte)
  | peek (a : Nat)
  | reset
  deriving DecidableEq, Repr

/-- What a command returns to the host. -/
inductive Reply where
  /-- The command returns nothing. -/
  | done
  /-- The byte `peek` returns (R95). -/
  | byte (v : Byte)
  /-- The error of a `poke` or `peek` at an address of 256 or more (60_exceptions.md R165). -/
  | outOfBoundsError
  deriving DecidableEq, Repr

/-- `poke(a, v)` (R94): refused while Running (R91, R166), an error out of range (R165), else one cell written. -/
def pokeCommand (a : Nat) (v : Byte) (s : State) : Host.Outcome (State × Reply) Fault Refusal :=
  if s.state = .running then .refused .pokeWhileRunning
  else if a < Config.memSize then .next (s.storeByte a v, .done)
  else .next (s, .outOfBoundsError)

/-- `peek(a)` (R95): the byte, or an error out of range (R165); never a change of state. -/
def peekCommand (a : Nat) (s : State) : Host.Outcome (State × Reply) Fault Refusal :=
  if a < Config.memSize then .next (s, .byte (s.readByte a)) else .next (s, .outOfBoundsError)

/-- `tick()` (R80, R81). -/
def tickCommand (s : State) : Host.Outcome (State × Reply) Fault Refusal :=
  match step s with
  | .next t => .next (t, .done)
  | .fault f => .fault f
  | .refused r => .refused r

/-- One host command is one step of the model (R91). -/
def runCommand (c : Command) (s : State) : Host.Outcome (State × Reply) Fault Refusal :=
  match c with
  | .start => .next (s.startRun, .done)
  | .stop => .next (s.stopRun, .done)
  | .tick => tickCommand s
  | .poke a v => pokeCommand a v s
  | .peek a => peekCommand a s
  | .reset => .next (s.resetCore, .done)

/-- A sequence of commands, one after another (R87); it ends at the first one refused. -/
def runCommands : List Command → State → Host.Outcome State Fault Refusal
  | [], s => .next s
  | c :: cs, s =>
    match runCommand c s with
    | .next (t, _) => runCommands cs t
    | .fault f => .fault f
    | .refused r => .refused r

/-- The pokes by which the Loader writes a program from address `a` upward (R178, R184). -/
def loadCommands (a : Nat) : List Byte → List Command
  | [] => []
  | v :: rest => .poke a v :: loadCommands (a + 1) rest

/-- The boot order (R178): reset, load from address 0, start. A program of more than 256 bytes is not loaded (R185). -/
def boot (bytes : List Byte) (s : State) : Host.Outcome State Fault Refusal :=
  if programFits bytes then runCommands (.reset :: (loadCommands 0 bytes ++ [.start])) s
  else .refused .programTooLong

/-- The input signals of the core (R96). -/
structure PinsIn where
  rst : Bool
  tick : Bool
  start : Bool
  stop : Bool
  hostWrEn : Bool
  hostRdEn : Bool
  hostAddr : Byte
  hostWrData : Byte
  deriving DecidableEq, Repr

/-- The output signals of the core (R96). The `prn` signals are one Option, the data of `prn_data` absent where `prn_valid`
is 0, and `host_rd_data` is absent where no byte is read (log entry 12). -/
structure PinsOut where
  hostRdData : Option Byte
  state : BitVec 2
  clkEn : Bool
  prn : Option Word
  faultKind : BitVec 2
  faultPc : Pc
  faultOpcode : Byte
  faultOpcodeValid : Bool
  faultAddr : Pc
  faultAddrValid : Bool
  deriving DecidableEq, Repr

/-- The acts the input signals ask for (R96). -/
def PinsIn.acts (p : PinsIn) : List Command :=
  (if p.rst then [.reset] else []) ++ (if p.tick then [.tick] else []) ++ (if p.start then [.start] else []) ++
    (if p.stop then [.stop] else []) ++ (if p.hostWrEn then [.poke p.hostAddr.toNat p.hostWrData] else []) ++
    (if p.hostRdEn then [.peek p.hostAddr.toNat] else [])

/-- The word a transition emits (R38, R96): what `after` has on the channel beyond what `before` had. -/
def emitted (before after : State) : Option Word := (after.out.drop before.out.length).head?

/-- The output signals of a transition that replied `r` (R96). -/
def pinsOut (before after : State) (r : Reply) : PinsOut :=
  { hostRdData := match r with
      | .byte v => some v
      | .done => none
      | .outOfBoundsError => none
    state := after.state.code
    clkEn := after.clkEn
    prn := emitted before after
    faultKind := after.fault.kind.code
    faultPc := after.fault.pc
    faultOpcode := after.fault.opcode
    faultOpcodeValid := after.fault.opcodeValid
    faultAddr := after.fault.addr
    faultAddrValid := after.fault.addrValid }

/-- One moment at the signals: nothing, or the one act asked for; two at once are refused (R87, R96). -/
def clockPins (p : PinsIn) (s : State) : Host.Outcome (State × PinsOut) Fault Refusal :=
  match p.acts with
  | [] => .next (s, pinsOut s s .done)
  | [c] =>
    match runCommand c s with
    | .next (t, r) => .next (t, pinsOut s t r)
    | .fault f => .fault f
    | .refused r => .refused r
  | _ :: _ :: _ => .refused .simultaneousActs

end Sys2Proof.Machine
end

