-- ==== Sys2Proof/Safety.lean ====
section
/-! DEFINITION. What the claims about a run are stated in: the ends of a run (40_fetch_decode_execute.md R97), the legal
fault records (60_exceptions.md R150 to R154) and the invariant of the machine. -/

namespace Sys2Proof.Machine

/-- The run has ended (R97). -/
def State.ended (s : State) : Prop := s.state = .halted ∨ s.state = .faulted

/-- The run is paused: Running with the clock disabled (R97, R164). -/
def State.paused (s : State) : Prop := s.state = .running ∧ s.clkEn = false

/-- The tick at `s` may execute (R80). -/
def State.live (s : State) : Prop := s.state = .running ∧ s.clkEn = true

/-- Memory holds `bytes` from address `a` upward, all below 256. -/
def State.holdsAt (s : State) (a : Nat) (bytes : List Byte) : Prop :=
  ∀ k b, bytes[k]? = some b → a + k < 256 ∧ s.readByte (a + k) = b

/-- The run state, the clock enable and the fault record are the same (R40). -/
def State.sameControl (s t : State) : Prop := t.state = s.state ∧ t.clkEn = s.clkEn ∧ t.fault = s.fault

/-- Fault entry as the spec words it (60_exceptions.md R153): from `s` to `t` the run stops in Faulted with the clock disabled;
the record has kind `k`, the `pc` of the tick, and the opcode and address given, valid where they are given and invalid where
they are not; `x`, `cr`, `pc`, `out` and `mem` keep their values. Of the data under a clear valid bit it says nothing. -/
structure State.FaultsTo (s t : State) (k : FaultKind) (op : Option Byte) (addr : Option Pc) : Prop where
  state : t.state = .faulted
  clkEn : t.clkEn = false
  kind : t.fault.kind = k
  faultPc : t.fault.pc = s.pc
  opcodeValid : t.fault.opcodeValid = op.isSome
  opcode : ∀ b, op = some b → t.fault.opcode = b
  addrValid : t.fault.addrValid = addr.isSome
  addr : ∀ a, addr = some a → t.fault.addr = a
  x : t.x = s.x
  cr : t.cr = s.cr
  pc : t.pc = s.pc
  out : t.out = s.out
  mem : t.mem = s.mem

/-- The fault records that can arise (10_state.md R37, R40; 60_exceptions.md R150 to R152, R154). -/
def FaultRecord.legal (f : FaultRecord) : Prop :=
  match f.kind with
  | .none => f = FaultRecord.clear
  | .invalidInstruction => f.pc.toNat < 256 ∧ f.opcodeValid = true ∧ lut f.opcode = none ∧ f.addrValid = false
  | .outOfBounds =>
    f.addrValid = true ∧ f.addr = 256 ∧
      ((f.pc = 256 ∧ f.opcodeValid = false) ∨
        (f.opcodeValid = true ∧ ∃ e, lut f.opcode = some e ∧ f.pc.toNat < 256 ∧ 256 < f.pc.toNat + e.length))
  | .divideByZero => f.pc.toNat ≤ 253 ∧ f.opcodeValid = true ∧ f.opcode = 0x09 ∧ f.addrValid = false

/-- The invariant every step and every host command keeps. -/
structure State.Inv (s : State) : Prop where
  /-- Memory is in its canonical form. -/
  memWf : s.mem.wf
  /-- `pc` holds a value from 0 to 256 (10_state.md R27). -/
  pcRange : s.pc.toNat ≤ 256
  /-- The clock is enabled only while Running (R88, R93). -/
  clockRuns : s.clkEn = true → s.state = .running
  /-- The fault record is one that can arise (R40). -/
  faultLegal : s.fault.legal
  /-- A fault is recorded exactly in the Faulted state (R153, R156). -/
  faultedIff : s.state = .faulted ↔ s.fault.kind ≠ .none
  /-- In the Faulted state `pc` still points at the instruction that faulted, or is 256 (R153). -/
  faultPc : s.state = .faulted → s.fault.pc = s.pc

end Sys2Proof.Machine
end

