-- ==== Sys2Proof/Certificates/Slice0/Obligations.lean ====
section
/-! DEFINITION. The statements for the provers. Each docstring names the rule of spec/ it formalises. Where a rule carries
the spec's own decision D<n> or its own inference, the docstring says so. -/

open Sys2Proof Sys2Proof.Machine

/-! Encoding -/

/-- The bytes 30_encoding.md R69 writes out for the nine instructions decode to them. -/
def Obligations.SpecWordsDecode : Prop :=
  decode [0x00] = .ok (.halt, []) ∧ decode [0x01] = .ok (.init, []) ∧ decode [0x02, 0xFF] = .ok (.set 255, []) ∧
  decode [0x04, 0x08] = .ok (.save 8, []) ∧ decode [0x05, 0x00, 0x01] = .ok (.mul 0 1, []) ∧
  decode [0x06] = .ok (.prn, []) ∧ decode [0x07, 0x00, 0x01] = .ok (.sub 0 1, []) ∧
  decode [0x08, 0x04, 0x01] = .ok (.add 4 1, []) ∧ decode [0x09, 0x02, 0x03] = .ok (.div 2 3, [])

/-- R64: the nine rows of the dispatch table with format, length and operand count, and "no handler" for every
other opcode byte. -/
def Obligations.LutIsTheOpcodeMap : Prop :=
  lut 0x00 = some ⟨.halt, 1, 0⟩ ∧ lut 0x01 = some ⟨.init, 1, 0⟩ ∧ lut 0x02 = some ⟨.set, 2, 1⟩ ∧
  lut 0x04 = some ⟨.save, 2, 1⟩ ∧ lut 0x05 = some ⟨.mul, 3, 2⟩ ∧ lut 0x06 = some ⟨.prn, 1, 0⟩ ∧
  lut 0x07 = some ⟨.sub, 3, 2⟩ ∧ lut 0x08 = some ⟨.add, 3, 2⟩ ∧ lut 0x09 = some ⟨.div, 3, 2⟩ ∧
  (∀ h : Handler, h.format =
    match h with
    | .halt | .init | .prn => .f1
    | .set | .save => .f2
    | .mul | .sub | .add | .div => .f3) ∧
  (∀ op : Byte, op = 0x03 ∨ 0x0A ≤ op.toNat → lut op = none) ∧ Instr.pcAdvance .halt = 0

/-- Decoding and encoding agree in both directions: a list of bytes decodes to an instruction and a rest exactly when it is
the instruction's encoding followed by that rest (30_encoding.md sections 1 to 3). -/
def Obligations.DecodeEncodeAgree : Prop :=
  ∀ (bytes rest : List Byte) (i : Instr), decode bytes = .ok (i, rest) ↔ bytes = encode i ++ rest

/-- What the decoder rejects, reason by reason: no byte, an opcode without handler, or a missing operand byte 1 or 2
(30_encoding.md section 4). That a missing operand byte is the decoder's to reject is the MODEL'S placement of the range check
(log entry 4, DEDUCED): the spec calls such an instruction not illegal, and raises OutOfBounds when its handler reads the
operand. -/
def Obligations.DecodeRejectsExactly : Prop :=
  ∀ bytes : List Byte,
    (decode bytes = .error .noOpcode ↔ bytes = []) ∧
    (∀ op, decode bytes = .error (.noHandler op) ↔ lut op = none ∧ ∃ rest, bytes = op :: rest) ∧
    (∀ op k, decode bytes = .error (.noOperand op k) ↔
      ∃ e, lut op = some e ∧ ((k = 1 ∧ bytes = [op] ∧ 1 ≤ e.operands) ∨ (k = 2 ∧ ∃ a, bytes = [op, a] ∧ e.operands = 2)))

/-! The tick -/

/-- When the bytes at the program counter decode to an instruction, an executing tick is exactly its handler: nothing is added
around it, and `pc` moves only as the handler says (40_fetch_decode_execute.md section 1). -/
def Obligations.StepRunsDecodedInstruction : Prop :=
  ∀ (s : State) (i : Instr) (rest : List Byte), s.live → decode s.fetchBytes = .ok (i, rest) → step s = exec i s

/-- An instruction whose encoding lies in memory at the program counter is the one an executing tick runs, whatever else
memory holds. -/
def Obligations.PlacedInstructionRuns : Prop :=
  ∀ (s : State) (i : Instr), s.live → s.holdsAt s.pc.toNat (encode i) → step s = exec i s

/-- R80 (decision D9): a tick executes only in Running with the clock enabled; in every other case a tick, forced by the
host or not, changes no state. -/
def Obligations.TickInertUnlessRunning : Prop :=
  ∀ s : State, ¬ (s.state = .running ∧ s.clkEn = true) →
    step s = .next s ∧ runCommand .tick s = .next (s, .done)

/-- R82 (decisions D5, D6): at `pc = 256` an executing tick records OutOfBounds with no valid opcode; and `pc = 256` arises
only after an instruction that ends at address 255. -/
def Obligations.FetchPastTopFaults : Prop :=
  (∀ s : State, s.live → s.pc = 256 →
    ∃ t, step s = .next t ∧ s.FaultsTo t .outOfBounds none (some 256) ∧ t.fault.pc = 256) ∧
  (∀ s t : State, s.pc.toNat < 256 → step s = .next t → t.pc = 256 →
    ∃ i rest, decode s.fetchBytes = .ok (i, rest) ∧ s.pc.toNat + i.length = 256)

/-- R67, R84 and R151: 0x03 and 0x0A to 0xFF are illegal, 247 values; an executing tick that fetches one records
InvalidInstruction with its `pc` and opcode and no address, whatever bytes follow, stops the clock and changes nothing else. -/
def Obligations.IllegalOpcodeFaults : Prop :=
  (∀ op : Byte, lut op = none ↔ op = 0x03 ∨ 0x0A ≤ op.toNat) ∧
  ((List.range 256).filter fun n => lut (BitVec.ofNat 8 n) = none).length = 247 ∧
  (∀ (s : State) (op : Byte), s.live → s.pc.toNat < 256 → s.readByte s.pc.toNat = op → op = 0x03 ∨ 0x0A ≤ op.toNat →
    ∃ t, step s = .next t ∧ s.FaultsTo t .invalidInstruction (some op) none)

/-- R155 (decision D12): the checks of one tick in their order, each with the fault it raises; with none failing the tick
raises nothing. -/
def Obligations.FaultChecksInOrder : Prop :=
  ∀ (s : State) (p : Nat) (op : Byte), s.live → s.pc.toNat = p → s.readByte p = op →
    (256 ≤ p → step s = .next (s.enterFault (.outOfBounds none p))) ∧
    (p < 256 → lut op = none → step s = .next (s.enterFault (.invalidInstruction op))) ∧
    (∀ e, p = 255 → lut op = some e → 1 ≤ e.operands → step s = .next (s.enterFault (.outOfBounds (some op) 256))) ∧
    (∀ e, p = 254 → lut op = some e → e.operands = 2 → step s = .next (s.enterFault (.outOfBounds (some op) 256))) ∧
    (p ≤ 253 → op = 0x09 → s.readReg (s.readByte (p + 2)) = 0 → step s = .next (s.enterFault (.divideByZero 0x09))) ∧
    (∀ e, lut op = some e → p + e.length ≤ 256 → (op = 0x09 → s.readReg (s.readByte (p + 2)) ≠ 0) →
      ∃ t, step s = .next t ∧ t.state ≠ .faulted ∧ t.fault = s.fault)

/-- R153 (decisions D4, D5, D13): a tick that faults does nothing but stop the run and write the record; every fault is
precise. -/
def Obligations.FaultEntryIsPrecise : Prop :=
  (∀ s t : State, s.live → step s = .next t → t.state = .faulted →
    t.clkEn = false ∧ t.fault.kind ≠ .none ∧ t.fault.pc = s.pc ∧
    t.x = s.x ∧ t.cr = s.cr ∧ t.pc = s.pc ∧ t.out = s.out ∧ t.mem = s.mem ∧
    ∃ f : Raise, t = s.enterFault f) ∧
  (∀ (s : State) (op : Byte), s.FaultsTo (s.enterFault (.invalidInstruction op)) .invalidInstruction (some op) none) ∧
  (∀ (s : State) (op : Option Byte) (a : Nat),
    s.FaultsTo (s.enterFault (.outOfBounds op a)) .outOfBounds op (some (BitVec.ofNat 9 a))) ∧
  (∀ (s : State) (op : Byte), s.FaultsTo (s.enterFault (.divideByZero op)) .divideByZero (some op) none)

/-- Every tick answers a next state, in every state: no instruction and no fault stops the model (70_reset_and_hazards.md
section 5, 60_exceptions.md section 1). -/
def Obligations.EveryTickAnswers : Prop := ∀ s : State, ∃ t, step s = .next t

/-- Each tick reads only the opcode byte and the operand bytes of its own instruction (20_memory.md R46): memory changed
anywhere else leaves the tick as it was. -/
def Obligations.TickReadsOnlyItsBytes : Prop :=
  ∀ (s t : State) (m : Memory),
    (∀ k, k = 0 ∨ (∃ e, lut (s.readByte s.pc.toNat) = some e ∧ k ≤ e.operands) →
      Memory.read m (s.pc.toNat + k) = s.readByte (s.pc.toNat + k)) →
    step s = .next t → step { s with mem := m } = .next { t with mem := m }

/-! The instructions: encoding, effect and completion, exceptions -/

/-- R100: INIT. It completes in every state. At address 255 it leaves `pc = 256` and the next tick is out of range, which the
rule marks as the spec's own inference. -/
def Obligations.InitZeroesThePointer : Prop :=
  (∀ rest, decode (0x01 :: rest) = .ok (.init, rest)) ∧
  (∀ s : State, exec .init s = .next { s with cr := 0, pc := s.pc + 1 }) ∧
  (∀ s t : State, s.live → s.pc = 255 → exec .init s = .next t →
    t.pc = 256 ∧ step t = .next (t.enterFault (.outOfBounds none 256)))

/-- R101: SET. It completes when its operand byte is in memory, and at address 255 it raises OutOfBounds at 256 and writes
nothing (decision D5). -/
def Obligations.SetWritesThePointer : Prop :=
  (∀ i rest, decode (0x02 :: i :: rest) = .ok (.set i, rest)) ∧
  (∀ (s : State) (i : Byte), s.pc.toNat + 1 < 256 → exec (.set i) s = .next { s with cr := i, pc := s.pc + 2 }) ∧
  (∀ (s : State) (i : Byte), s.pc = 255 →
    ∃ t, exec (.set i) s = .next t ∧ s.FaultsTo t .outOfBounds (some 0x02) (some 256))

/-- R110: SAVE. The literal is zero-extended into the current register (decision D23); at address 255 it raises OutOfBounds at
256 and writes nothing (decision D5). -/
def Obligations.SaveWritesTheLiteral : Prop :=
  (∀ n rest, decode (0x04 :: n :: rest) = .ok (.save n, rest)) ∧
  (∀ (s : State) (n : Byte), s.pc.toNat + 1 < 256 → exec (.save n) s =
    .next { s with x := s.x.set s.cr.toNat (BitVec.ofNat 32 n.toNat) s.cr.isLt, pc := s.pc + 2 }) ∧
  (∀ (s : State) (n : Byte), s.pc = 255 →
    ∃ t, exec (.save n) s = .next t ∧ s.FaultsTo t .outOfBounds (some 0x04) (some 256))

/-- R118: MUL, modulo 2^32 (decision D2). -/
def Obligations.MulWritesTheProduct : Prop :=
  (∀ a b rest, decode (0x05 :: a :: b :: rest) = .ok (.mul a b, rest)) ∧
  (∀ (s : State) (a b : Byte), s.pc.toNat ≤ 253 → exec (.mul a b) s =
    .next { s with
      x := s.x.set s.cr.toNat (BitVec.ofNat 32 ((s.readReg a).toNat * (s.readReg b).toNat)) s.cr.isLt, pc := s.pc + 3 }) ∧
  (∀ (s : State) (a b : Byte), s.pc = 254 ∨ s.pc = 255 →
    ∃ t, exec (.mul a b) s = .next t ∧ s.FaultsTo t .outOfBounds (some 0x05) (some 256))

/-- R122: SUB, register `a` less register `b`, modulo 2^32 (decision D2). -/
def Obligations.SubWritesTheDifference : Prop :=
  (∀ a b rest, decode (0x07 :: a :: b :: rest) = .ok (.sub a b, rest)) ∧
  (∀ (s : State) (a b : Byte), s.pc.toNat ≤ 253 → exec (.sub a b) s =
    .next { s with
      x := s.x.set s.cr.toNat (BitVec.ofNat 32 (2 ^ 32 + (s.readReg a).toNat - (s.readReg b).toNat)) s.cr.isLt,
      pc := s.pc + 3 }) ∧
  (∀ (s : State) (a b : Byte), s.pc = 254 ∨ s.pc = 255 →
    ∃ t, exec (.sub a b) s = .next t ∧ s.FaultsTo t .outOfBounds (some 0x07) (some 256))

/-- R126: ADD, modulo 2^32 (decision D2). -/
def Obligations.AddWritesTheSum : Prop :=
  (∀ a b rest, decode (0x08 :: a :: b :: rest) = .ok (.add a b, rest)) ∧
  (∀ (s : State) (a b : Byte), s.pc.toNat ≤ 253 → exec (.add a b) s =
    .next { s with
      x := s.x.set s.cr.toNat (BitVec.ofNat 32 ((s.readReg a).toNat + (s.readReg b).toNat)) s.cr.isLt, pc := s.pc + 3 }) ∧
  (∀ (s : State) (a b : Byte), s.pc = 254 ∨ s.pc = 255 →
    ∃ t, exec (.add a b) s = .next t ∧ s.FaultsTo t .outOfBounds (some 0x08) (some 256))

/-- R130, R131 and R154: DIV. With its operands in memory and a divisor that is not 0 it writes the signed quotient rounded
toward zero (decision D3); a divisor of 0 raises DivideByZero, for every dividend (decision D4); operands out of memory raise
OutOfBounds whatever the divisor is. -/
def Obligations.DivWritesTheQuotient : Prop :=
  (∀ a b rest, decode (0x09 :: a :: b :: rest) = .ok (.div a b, rest)) ∧
  (∀ (s : State) (a b : Byte), s.pc.toNat ≤ 253 → s.readReg b ≠ 0 → exec (.div a b) s =
    .next { s with
      x := s.x.set s.cr.toNat (BitVec.ofInt 32 ((s.readReg a).toInt.tdiv (s.readReg b).toInt)) s.cr.isLt,
      pc := s.pc + 3 }) ∧
  (∀ (s : State) (a b : Byte), s.pc.toNat ≤ 253 → s.readReg b = 0 →
    ∃ t, exec (.div a b) s = .next t ∧ s.FaultsTo t .divideByZero (some 0x09) none) ∧
  (∀ (s : State) (a b : Byte), s.pc = 254 ∨ s.pc = 255 →
    ∃ t, exec (.div a b) s = .next t ∧ s.FaultsTo t .outOfBounds (some 0x09) (some 256))

/-- R136: PRN. It completes in every state; at address 255 it emits, and the tick after it faults with the word still in
`out`. -/
def Obligations.PrnEmitsTheCurrentRegister : Prop :=
  (∀ rest, decode (0x06 :: rest) = .ok (.prn, rest)) ∧
  (∀ s : State, exec .prn s = .next { s with out := s.out ++ [s.readReg s.cr], pc := s.pc + 1 }) ∧
  (∀ s t : State, s.live → s.pc = 255 → exec .prn s = .next t →
    t.pc = 256 ∧ ∃ u, step t = .next u ∧ u.fault.kind = .outOfBounds ∧ u.out = s.out ++ [s.readReg s.cr])

/-- R141: HALT. It completes in every state, leaves `pc` at its own address (decision D7), and no tick executes after it.
The last clause, that a run that reaches a byte the program did not load halts there, is marked in the rule as the spec's own
inference from R21 and this rule. -/
def Obligations.HaltStopsTheRun : Prop :=
  (∀ rest, decode (0x00 :: rest) = .ok (.halt, rest)) ∧
  (∀ s : State, exec .halt s = .next { s with state := .halted, clkEn := false }) ∧
  (∀ s t : State, exec .halt s = .next t → step t = .next t) ∧
  (∀ s : State, s.live → s.pc.toNat < 256 → s.readByte s.pc.toNat = State.reset.readByte s.pc.toNat →
    step s = exec .halt s)

/-- R115: what the four arithmetic instructions share at the level of a tick: with the opcode at `p = 255` or `p = 254` the
operand fetches fail at address 256 and nothing is written; else the operand bytes are those at `p + 1` and `p + 2`
(decision D5). -/
def Obligations.ArithmeticOperandFetches : Prop :=
  ∀ (s : State) (h : Handler), s.live → s.pc.toNat < 256 → h = .mul ∨ h = .sub ∨ h = .add ∨ h = .div →
    s.readByte s.pc.toNat = h.opcode →
    (254 ≤ s.pc.toNat → ∃ t, step s = .next t ∧ s.FaultsTo t .outOfBounds (some h.opcode) (some 256)) ∧
    (s.pc.toNat ≤ 253 → ∃ i : Instr, i.handler = h ∧
      i.operandBytes = [s.readByte (s.pc.toNat + 1), s.readByte (s.pc.toNat + 2)] ∧ step s = exec i s)

/-! Arithmetic -/

/-- R132: the DIV quotient is the signed quotient rounded toward zero, whenever it fits; its table is the spec's own inference
from R130 (decision D3). -/
def Obligations.DivRoundsTowardZero : Prop :=
  ∀ u v : Word, v ≠ 0 → ¬ (u = 0x80000000 ∧ v = 0xFFFFFFFF) →
    (aluDiv u v).toInt = u.toInt.tdiv v.toInt ∧
    (aluDiv u v).toInt.natAbs * v.toInt.natAbs ≤ u.toInt.natAbs ∧
    u.toInt.natAbs < ((aluDiv u v).toInt.natAbs + 1) * v.toInt.natAbs

/-- R133 (decision D3): the most negative number divided by -1 wraps to itself, with no trap. -/
def Obligations.DivOverflowWraps : Prop :=
  aluDiv 0x80000000 0xFFFFFFFF = 0x80000000 ∧
  ∀ (s : State) (a b : Byte), s.pc.toNat ≤ 253 → s.readReg a = 0x80000000 → s.readReg b = 0xFFFFFFFF →
    ∃ t, exec (.div a b) s = .next t ∧ t.readReg s.cr = 0x80000000 ∧ s.sameControl t

/-- R116 (decisions D1, D2): ADD, SUB and MUL give the low 32 bits of the exact result, under the unsigned and the signed
reading of the operands alike; no flag exists and no overflow traps, so the instruction completes whatever the operands. -/
def Obligations.ArithmeticIsModular : Prop :=
  (∀ u v : Word,
    (aluAdd u v).toNat = (u.toNat + v.toNat) % 2 ^ 32 ∧
    (aluSub u v).toNat = (2 ^ 32 + u.toNat - v.toNat) % 2 ^ 32 ∧
    (aluMul u v).toNat = (u.toNat * v.toNat) % 2 ^ 32 ∧
    aluAdd u v = BitVec.ofInt 32 (u.toInt + v.toInt) ∧
    aluSub u v = BitVec.ofInt 32 (u.toInt - v.toInt) ∧
    aluMul u v = BitVec.ofInt 32 (u.toInt * v.toInt) ∧
    aluDiv u v = BitVec.ofInt 32 (u.toInt.tdiv v.toInt)) ∧
  (∀ (s : State) (a b : Byte) (i : Instr), s.pc.toNat ≤ 253 →
    i = .add a b ∨ i = .sub a b ∨ i = .mul a b ∨ (i = .div a b ∧ s.readReg b ≠ 0) →
    ∃ t, exec i s = .next t ∧ s.sameControl t)

/-- R26, the spec's own inference and decision D22: sources are read before the destination is written, so ADD of the current
register to itself doubles it, and any arithmetic instruction computes from the old value. -/
def Obligations.SourcesReadBeforeDestination : Prop :=
  ∀ (s : State) (b : Byte), s.pc.toNat ≤ 253 →
    (∃ t, exec (.add s.cr s.cr) s = .next t ∧ t.readReg s.cr = s.readReg s.cr + s.readReg s.cr) ∧
    (∃ t, exec (.mul s.cr b) s = .next t ∧ t.readReg s.cr = s.readReg s.cr * s.readReg b) ∧
    (∃ t, exec (.sub b s.cr) s = .next t ∧ t.readReg s.cr = s.readReg b - s.readReg s.cr) ∧
    (s.readReg s.cr ≠ 0 → ∃ t, exec (.div s.cr s.cr) s = .next t ∧ t.readReg s.cr = 1)

/-- R137 (decision D14): an emitted word is shown as signed decimal, with a minus sign when it is negative. -/
def Obligations.EmittedWordShownSigned : Prop :=
  signedDecimal 0x00000048 = "72" ∧ signedDecimal 0xFFFFFFFF = "-1" ∧
  ∀ v : Word, signedDecimal v = (if v.toInt < 0 then "-" else "") ++ toString v.toInt.natAbs

/-! Frames -/

/-- INIT and SET leave every register, the output and every memory byte alone, and the control state too unless SET's operand
byte is out of memory, when they leave the pointer and `pc` alone. -/
def Obligations.PointerInstructionsFrame : Prop :=
  (∀ s t : State, exec .init s = .next t →
    (∀ r, t.readReg r = s.readReg r) ∧ t.out = s.out ∧ (∀ a, t.readByte a = s.readByte a) ∧ s.sameControl t) ∧
  (∀ (s t : State) (i : Byte), exec (.set i) s = .next t →
    (∀ r, t.readReg r = s.readReg r) ∧ t.out = s.out ∧ (∀ a, t.readByte a = s.readByte a) ∧
    (s.pc.toNat + 1 < 256 → s.sameControl t) ∧ (256 ≤ s.pc.toNat + 1 → t.cr = s.cr ∧ t.pc = s.pc))

/-- SAVE, MUL, SUB, ADD and DIV change no register but the current one, and leave the pointer, the output and every memory byte
alone; the control state changes only when the instruction faults, and then the registers and `pc` do not. -/
def Obligations.RegisterWritersFrame : Prop :=
  ∀ (s t : State) (a b : Byte) (i : Instr),
    i = .save a ∨ i = .mul a b ∨ i = .sub a b ∨ i = .add a b ∨ i = .div a b → exec i s = .next t →
    (∀ r, r ≠ s.cr → t.readReg r = s.readReg r) ∧ t.cr = s.cr ∧ t.out = s.out ∧
    (∀ c, t.readByte c = s.readByte c) ∧
    (s.pc.toNat + i.length ≤ 256 → (i = .div a b → s.readReg b ≠ 0) → s.sameControl t) ∧
    (256 < s.pc.toNat + i.length ∨ (i = .div a b ∧ s.readReg b = 0) → t.x = s.x ∧ t.pc = s.pc)

/-- PRN leaves every register, the pointer, the control state and every memory byte alone, and only appends to the output;
HALT leaves everything alone but the run state and the clock enable. -/
def Obligations.OutputAndControlFrame : Prop :=
  (∀ s t : State, exec .prn s = .next t →
    (∀ r, t.readReg r = s.readReg r) ∧ t.cr = s.cr ∧ s.sameControl t ∧ (∀ a, t.readByte a = s.readByte a) ∧
    s.out <+: t.out) ∧
  (∀ s t : State, exec .halt s = .next t →
    (∀ r, t.readReg r = s.readReg r) ∧ t.cr = s.cr ∧ t.pc = s.pc ∧ t.out = s.out ∧ t.fault = s.fault ∧
    (∀ a, t.readByte a = s.readByte a))

/-- No instruction writes memory (20_memory.md section 2, an inference the spec marks as its own): memory is the same at the
end of every tick as at its start. -/
def Obligations.MemoryNeverWritten : Prop :=
  ∀ s t : State, step s = .next t → t.mem = s.mem ∧ ∀ a, t.readByte a = s.readByte a

/-- R29: the amount each instruction adds to `pc`, for an executing tick whose instruction raises no fault; HALT leaves `pc` at
`p` (decision D7). -/
def Obligations.PcAdvancesByTheWidth : Prop :=
  (Instr.pcAdvance .init = 1 ∧ Instr.pcAdvance .prn = 1 ∧ Instr.pcAdvance .halt = 0 ∧
    ∀ a b, Instr.pcAdvance (.set a) = 2 ∧ Instr.pcAdvance (.save a) = 2 ∧ Instr.pcAdvance (.mul a b) = 3 ∧
      Instr.pcAdvance (.sub a b) = 3 ∧ Instr.pcAdvance (.add a b) = 3 ∧ Instr.pcAdvance (.div a b) = 3) ∧
  (∀ (s t : State) (i : Instr) (rest : List Byte), s.live → decode s.fetchBytes = .ok (i, rest) → step s = .next t →
    t.state ≠ .faulted → t.pc.toNat = s.pc.toNat + i.pcAdvance)

/-- R38: `out` is empty after reset, a tick appends to it only when it runs PRN, one word, and nothing removes from it. -/
def Obligations.OutputGrowsOnlyByPrn : Prop :=
  State.reset.out = [] ∧
  ∀ (s t : State) (c : Command) (r : Reply), c ≠ .reset → runCommand c s = .next (t, r) →
    t.out = s.out ∨
    (c = .tick ∧ s.live ∧ s.pc.toNat < 256 ∧ s.readByte s.pc.toNat = 0x06 ∧ t.out = s.out ++ [s.readReg s.cr])

/-! The run state and the host -/

/-- R88 (decisions D4, D5): the transitions of the run state, and no others but reset. An executing tick decodes HALT and is
Halted, or fails its fetch and is Faulted by that fault's entry, or is the handler of another instruction: Faulted for a DIV by
zero, and Running with that handler's writes otherwise. -/
def Obligations.RunStateTable : Prop :=
  (∀ s : State, s.state = .idle → runCommand .start s = .next ({ s with state := .running, clkEn := true }, .done)) ∧
  (∀ s t : State, s.live → step s = .next t →
    ((∃ rest, decode s.fetchBytes = .ok (.halt, rest)) ∧ t = { s with state := .halted, clkEn := false }) ∨
    (∃ why, decode s.fetchBytes = .error why ∧ t = s.enterFault (rejectRaise s.pc why)) ∨
    (∃ i rest, i ≠ .halt ∧ decode s.fetchBytes = .ok (i, rest) ∧ exec i s = .next t ∧
      ((t.state = .faulted ∧ t.clkEn = false ∧ ∃ a b, i = .div a b ∧ s.readReg b = 0 ∧
        t = s.enterFault (.divideByZero 0x09)) ∨
      (t.state = .running ∧ t.clkEn = true ∧ ¬ ∃ a b, i = .div a b ∧ s.readReg b = 0)))) ∧
  (∀ (s t : State) (c : Command) (r : Reply), c ≠ .reset → ¬ (c = .start ∧ s.state = .idle) → ¬ (c = .tick ∧ s.live) →
    runCommand c s = .next (t, r) → t.state = s.state)

/-- R89 (decision D9): Halted and Faulted are terminal; only reset leaves them. -/
def Obligations.HaltedAndFaultedAreTerminal : Prop :=
  ∀ s : State, s.ended →
    step s = .next s ∧ runCommand .start s = .next (s, .done) ∧
    (∀ (c : Command) (t : State) (r : Reply), c ≠ .reset → runCommand c s = .next (t, r) → t.state = s.state) ∧
    ∃ t, runCommand .reset s = .next (t, .done) ∧ t.state = .idle

/-- R90: there is no transition from Running to Idle, by any sequence of commands without a reset. -/
def Obligations.NeverBackToIdle : Prop :=
  ∀ (s t : State) (cs : List Command), s.state = .running → .reset ∉ cs → runCommands cs s = .next t → t.state ≠ .idle

/-- After a fault the core stays Faulted with its record, registers, pointers and output until reset, whatever commands it is
given (60_exceptions.md section 1, an inference the spec marks as its own). -/
def Obligations.FaultKeptUntilReset : Prop :=
  ∀ (s t : State) (cs : List Command), s.state = .faulted → .reset ∉ cs → runCommands cs s = .next t →
    t.state = .faulted ∧ t.fault = s.fault ∧ t.x = s.x ∧ t.pc = s.pc ∧ t.cr = s.cr ∧ t.out = s.out

/-- R92 (decisions D9, D10): `start()` in each state. -/
def Obligations.StartCommand : Prop :=
  ∀ s : State,
    (s.state = .idle → runCommand .start s = .next ({ s with state := .running, clkEn := true }, .done)) ∧
    (s.state = .running → s.clkEn = false → runCommand .start s = .next ({ s with clkEn := true }, .done)) ∧
    (s.state = .running → s.clkEn = true → runCommand .start s = .next (s, .done)) ∧
    (s.state = .halted → runCommand .start s = .next (s, .done)) ∧
    (s.state = .faulted → runCommand .start s = .next (s, .done))

/-- What `poke` does (40_fetch_decode_execute.md section 3, 60_exceptions.md section 5; decision D11): it writes one cell while
the core is not Running, is refused while Running, and out of range returns an error and changes nothing. Two clauses are the
MODEL'S: that a poke both out of range and given while Running is refused is its reading (log entry 8, DEDUCED), and the canonical
form of the memory before and after is that of its list (log entry 1, DESIGN CHOICE). -/
def Obligations.PokeCommand : Prop :=
  ∀ (s : State) (a : Nat) (v : Byte), s.mem.wf →
    (s.state = .running → runCommand (.poke a v) s = .refused .pokeWhileRunning) ∧
    (s.state ≠ .running → 256 ≤ a → runCommand (.poke a v) s = .next (s, .outOfBoundsError)) ∧
    (s.state ≠ .running → a < 256 → ∃ m : Memory, runCommand (.poke a v) s = .next ({ s with mem := m }, .done) ∧
      m.wf ∧ ∀ b, Memory.read m b = if b = a then v else s.readByte b)

/-- R95 (decision D11): `peek` returns a cell and changes nothing, in every state; and a `poke` followed by a `peek` returns
what was poked, which the rule marks as the spec's own inference. -/
def Obligations.PeekCommand : Prop :=
  (∀ (s : State) (a : Nat), a < 256 → runCommand (.peek a) s = .next (s, .byte (s.readByte a))) ∧
  (∀ (s : State) (a : Nat), 256 ≤ a → runCommand (.peek a) s = .next (s, .outOfBoundsError)) ∧
  (∀ (s : State) (a : Nat) (v : Byte), s.mem.wf → s.state ≠ .running → a < 256 →
    ∃ t, runCommand (.poke a v) s = .next (t, .done) ∧ runCommand (.peek a) t = .next (t, .byte v))

/-- R91 (decision D11): the table of which command is admitted in which state, and its effect there, in the states where the
clock is enabled only while Running. -/
def Obligations.CommandTable : Prop :=
  ∀ s : State, (s.clkEn = true → s.state = .running) →
    (runCommand .start s = .next
      (match s.state with
        | .idle => { s with state := .running, clkEn := true }
        | .running => { s with clkEn := true }
        | .halted | .faulted => s, .done)) ∧
    (s.live → runCommand .stop s = .next ({ s with clkEn := false }, .done)) ∧
    (¬ s.live → runCommand .stop s = .next (s, .done)) ∧
    (s.live → ∃ t, step s = .next t ∧ runCommand .tick s = .next (t, .done)) ∧
    (¬ s.live → runCommand .tick s = .next (s, .done)) ∧
    (∀ a v, (∃ t r, runCommand (.poke a v) s = .next (t, r)) ↔ s.state ≠ .running) ∧
    (∀ a v, s.state = .running → runCommand (.poke a v) s = .refused .pokeWhileRunning) ∧
    (∀ a, ∃ r, runCommand (.peek a) s = .next (s, r))

/-- R93 and R190 (decision D10): `stop()` clears the clock enable and changes nothing else, in every state, and is
idempotent; after it no tick executes until `start()` is called again, and the run state stays what it was; and no tick
blocks. -/
def Obligations.StopHoldsUntilStart : Prop :=
  (∀ s : State, runCommand .stop s = .next ({ s with clkEn := false }, .done)) ∧
  (∀ s t : State, runCommand .stop s = .next (t, .done) → runCommand .stop t = .next (t, .done)) ∧
  (∀ (s t : State) (cs : List Command), .start ∉ cs → .reset ∉ cs → runCommands (.stop :: cs) s = .next t →
    t.clkEn = false ∧ runCommand .tick t = .next (t, .done) ∧
    t.state = s.state ∧ t.x = s.x ∧ t.pc = s.pc ∧ t.cr = s.cr ∧ t.out = s.out ∧ t.fault = s.fault) ∧
  (∀ s : State, ∃ t, step s = .next t)

/-- Between ticks the host reaches memory, the run state and the clock enable alone: no command but a tick and reset changes
a register, `pc`, `cr`, the output or the fault record (10_state.md sections 3, 5 and 10, where the spec marks it as its own
inference). -/
def Obligations.HostReachesNoRegister : Prop :=
  ∀ (s t : State) (c : Command) (r : Reply), c ≠ .tick → c ≠ .reset → runCommand c s = .next (t, r) →
    t.x = s.x ∧ t.pc = s.pc ∧ t.cr = s.cr ∧ t.out = s.out ∧ t.fault = s.fault

/-- R175 and R176 (decisions D8, D17): reset is accepted in every state and leaves every piece of the spec's state at its value, the
data bits of the invalid fields included; the dispatch table has no part in it. The field `draws` is the model's own and no
state of the spec (log entry 3). -/
def Obligations.ResetValues : Prop :=
  (∀ s : State, runCommand .reset s = .next ({ State.reset with draws := s.draws }, .done)) ∧
  (∀ a, State.reset.readByte a = 0x00) ∧ (∀ i, State.reset.readReg i = 0x00000000) ∧
  State.reset.pc = 0 ∧ State.reset.cr = 0 ∧ State.reset.state = .idle ∧ State.reset.clkEn = false ∧
  State.reset.fault = ⟨.none, 0, 0, false, 0, false⟩ ∧ State.reset.out = []

/-- R178 with R177 and R185 (decision D19): the boot order loads a program of at most 256 bytes from address 0, leaves the
rest of memory 0x00 and everything else as reset left it, and starts at address 0; a longer program is not loaded. -/
def Obligations.BootLoadsAndStarts : Prop :=
  (∀ (s : State) (bytes : List Byte), bytes.length ≤ 256 →
    ∃ t, boot bytes s = .next t ∧ (∀ k, t.readByte k = (bytes[k]?).getD 0) ∧
      t = { State.reset with mem := t.mem, state := .running, clkEn := true, draws := s.draws } ∧ t.fetchBytes = t.bytesFrom 0 3) ∧
  (∀ (s : State) (bytes : List Byte), 256 < bytes.length → boot bytes s = .refused .programTooLong)

/-- The output signals (40_fetch_decode_execute.md section 3). For every act they show the state after it, as the codes of R35
and R150 and the fields of the fault record with their valid bits, and the byte a `peek` read; and after a tick the emit signal
is valid exactly when the tick ran PRN, with its word. That `prn_data` and `host_rd_data` are absent where they are not
valid is the MODEL'S choice (log entry 12, DEDUCED). -/
def Obligations.PinsShowTheTick : Prop :=
  (∀ s t : State, step s = .next t →
    (s.live → s.pc.toNat < 256 → s.readByte s.pc.toNat = 0x06 → (pinsOut s t .done).prn = some (s.readReg s.cr)) ∧
    (¬ (s.live ∧ s.pc.toNat < 256 ∧ s.readByte s.pc.toNat = 0x06) → (pinsOut s t .done).prn = none)) ∧
  (∀ (s t : State) (c : Command) (r : Reply), c ≠ .tick → runCommand c s = .next (t, r) → (pinsOut s t r).prn = none) ∧
  (∀ (s t : State) (r : Reply),
    (pinsOut s t r).state = t.state.code ∧ (pinsOut s t r).clkEn = t.clkEn ∧
    (pinsOut s t r).faultKind = t.fault.kind.code ∧ (pinsOut s t r).faultPc = t.fault.pc ∧
    (pinsOut s t r).faultOpcode = t.fault.opcode ∧ (pinsOut s t r).faultOpcodeValid = t.fault.opcodeValid ∧
    (pinsOut s t r).faultAddr = t.fault.addr ∧ (pinsOut s t r).faultAddrValid = t.fault.addrValid) ∧
  (∀ (s t : State) (v : Byte), (pinsOut s t (.byte v)).hostRdData = some v) ∧
  (∀ s t : State, (pinsOut s t .done).hostRdData = none ∧ (pinsOut s t .outOfBoundsError).hostRdData = none) ∧
  RunState.idle.code = 0 ∧ RunState.running.code = 1 ∧ RunState.halted.code = 2 ∧ RunState.faulted.code = 3 ∧
  FaultKind.none.code = 0 ∧ FaultKind.invalidInstruction.code = 1 ∧ FaultKind.outOfBounds.code = 2 ∧
  FaultKind.divideByZero.code = 3

/-- At most one command or tick acts at a time (40_fetch_decode_execute.md sections 1 and 3): each of the six strobes of R96
alone asks for its own command, with the address and the data beside it; none asserted changes nothing; one asserted is that
command, refused where it is; and two or more at once get no step, which is the MODEL'S reading (log entry 10, DEDUCED). -/
def Obligations.OneActAtATime : Prop :=
  (∀ a v : Byte,
    PinsIn.acts ⟨false, false, false, false, false, false, a, v⟩ = [] ∧
    PinsIn.acts { rst := true, tick := false, start := false, stop := false, hostWrEn := false, hostRdEn := false,
                  hostAddr := a, hostWrData := v } = [.reset] ∧
    PinsIn.acts { rst := false, tick := true, start := false, stop := false, hostWrEn := false, hostRdEn := false,
                  hostAddr := a, hostWrData := v } = [.tick] ∧
    PinsIn.acts { rst := false, tick := false, start := true, stop := false, hostWrEn := false, hostRdEn := false,
                  hostAddr := a, hostWrData := v } = [.start] ∧
    PinsIn.acts { rst := false, tick := false, start := false, stop := true, hostWrEn := false, hostRdEn := false,
                  hostAddr := a, hostWrData := v } = [.stop] ∧
    PinsIn.acts { rst := false, tick := false, start := false, stop := false, hostWrEn := true, hostRdEn := false,
                  hostAddr := a, hostWrData := v } = [.poke a.toNat v] ∧
    PinsIn.acts { rst := false, tick := false, start := false, stop := false, hostWrEn := false, hostRdEn := true,
                  hostAddr := a, hostWrData := v } = [.peek a.toNat]) ∧
  (∀ (p : PinsIn) (s : State),
    p.acts.length = p.rst.toNat + p.tick.toNat + p.start.toNat + p.stop.toNat + p.hostWrEn.toNat + p.hostRdEn.toNat ∧
    (p.acts = [] → clockPins p s = .next (s, pinsOut s s .done)) ∧
    (∀ c t r, p.acts = [c] → runCommand c s = .next (t, r) → clockPins p s = .next (t, pinsOut s t r)) ∧
    (∀ c r, p.acts = [c] → runCommand c s = .refused r → clockPins p s = .refused r) ∧
    (2 ≤ p.rst.toNat + p.tick.toNat + p.start.toNat + p.stop.toNat + p.hostWrEn.toNat + p.hostRdEn.toNat →
      clockPins p s = .refused .simultaneousActs))

/-! The whole machine -/

/-- Canonical memories that read the same everywhere are the same data (10_state.md section 2; the form of the list is the
model's, log entry 1). -/
def Obligations.CanonicalMemoriesAgree : Prop :=
  ∀ m n : Memory, m.wf → n.wf → (∀ a, Memory.read m a = Memory.read n a) → m = n

/-- The invariant holds after reset. -/
def Obligations.InvariantAtReset : Prop := State.reset.Inv

/-- Every tick keeps the invariant, from every state that meets it. -/
def Obligations.StepKeepsInvariant : Prop :=
  ∀ s t : State, s.Inv → step s = .next t → t.Inv

/-- Every sequence of host commands keeps the invariant. -/
def Obligations.CommandsKeepInvariant : Prop :=
  ∀ (cs : List Command) (s t : State), s.Inv → runCommands cs s = .next t → t.Inv

/-- Every run that is ticked ends within 257 executing ticks, from any `pc` in range, and one tick sooner for each address
already passed (40_fetch_decode_execute.md section 4, an inference the spec marks as its own). -/
def Obligations.RunEndsWithin257Ticks : Prop :=
  ∀ s : State, s.live → s.pc.toNat ≤ 256 →
    ∃ n t, n ≤ 257 - s.pc.toNat ∧ Host.Core.run Sys2Proof.core n s = .next t ∧ t.ended
end

