-- ==== Sys2Proof/Laws/Decode.lean ====
section
/-! SUPPORT. The rows of the opcode map as lookups, and what the decoder does with each format. -/

namespace Sys2Proof

/-- The nine rows, looked up (30_encoding.md R64). -/
theorem lut_opcode (h : Handler) : lut h.opcode = some ⟨h, 1 + h.format.operands, h.format.operands⟩ := by
  cases h <;> rfl

/-- The operand bytes of an instruction are as many as its format asks for (R61). -/
theorem operandBytes_length (i : Instr) : i.operandBytes.length = i.handler.format.operands := by
  cases i <;> rfl

theorem encode_length (i : Instr) : (encode i).length = i.length := by
  simp [encode, Instr.length, Nat.add_comm]

theorem Instr.length_pos (i : Instr) : 0 < i.length := by unfold Instr.length; omega

theorem Instr.length_le (i : Instr) : i.length ≤ 3 := by cases i <;> simp [Instr.length, Instr.operandBytes]

/-- What an instruction adds to `pc` is its length, but for HALT (10_state.md R29). -/
theorem Instr.pcAdvance_eq (i : Instr) : i.pcAdvance = if i = .halt then 0 else i.length := by
  cases i <;> rfl

/-- A table entry is the row of its own handler. -/
theorem lut_some {op : Byte} {e : LutEntry} (h : lut op = some e) :
    op = e.handler.opcode ∧ e.length = 1 + e.operands ∧ e.operands = e.handler.format.operands := by
  simp only [lut, opcodeMap, List.lookup] at h
  repeat' split at h
  all_goals first
    | (rename_i hb; cases h; simp only [beq_iff_eq] at hb; exact ⟨hb, rfl, rfl⟩)
    | cases h

theorem decode_nil : decode [] = .error .noOpcode := rfl

/-- A byte with no handler is rejected whatever follows it. -/
theorem decode_noHandler {op : Byte} (h : lut op = none) (rest : List Byte) :
    decode (op :: rest) = .error (.noHandler op) := by
  simp [decode, h]

/-- The decoder at a handler's opcode reads that handler's operands. -/
theorem decode_opcode (h : Handler) (rest : List Byte) :
    decode (h.opcode :: rest) = decodeOperands h.opcode h rest := by
  simp [decode, lut_opcode]

end Sys2Proof
end

