-- ==== Sys2Proof/Laws/State.lean ====
section
/-! SUPPORT. What each named update of the state does to each field: one lemma per field per update, so that no later proof
unfolds a record update. -/

namespace Sys2Proof.Machine

variable (s : State)

@[simp] theorem State.storeByte_mem (a : Nat) (v : Byte) : (s.storeByte a v).mem = Memory.write s.mem a v := rfl
@[simp] theorem State.storeByte_x (a : Nat) (v : Byte) : (s.storeByte a v).x = s.x := rfl
@[simp] theorem State.storeByte_pc (a : Nat) (v : Byte) : (s.storeByte a v).pc = s.pc := rfl
@[simp] theorem State.storeByte_cr (a : Nat) (v : Byte) : (s.storeByte a v).cr = s.cr := rfl
@[simp] theorem State.storeByte_state (a : Nat) (v : Byte) : (s.storeByte a v).state = s.state := rfl
@[simp] theorem State.storeByte_clkEn (a : Nat) (v : Byte) : (s.storeByte a v).clkEn = s.clkEn := rfl
@[simp] theorem State.storeByte_fault (a : Nat) (v : Byte) : (s.storeByte a v).fault = s.fault := rfl
@[simp] theorem State.storeByte_out (a : Nat) (v : Byte) : (s.storeByte a v).out = s.out := rfl
@[simp] theorem State.storeByte_draws (a : Nat) (v : Byte) : (s.storeByte a v).draws = s.draws := rfl

@[simp] theorem State.writeReg_mem (i : Byte) (v : Word) : (s.writeReg i v).mem = s.mem := rfl
@[simp] theorem State.writeReg_x (i : Byte) (v : Word) : (s.writeReg i v).x = s.x.set i.toNat v i.isLt := rfl
@[simp] theorem State.writeReg_pc (i : Byte) (v : Word) : (s.writeReg i v).pc = s.pc := rfl
@[simp] theorem State.writeReg_cr (i : Byte) (v : Word) : (s.writeReg i v).cr = s.cr := rfl
@[simp] theorem State.writeReg_state (i : Byte) (v : Word) : (s.writeReg i v).state = s.state := rfl
@[simp] theorem State.writeReg_clkEn (i : Byte) (v : Word) : (s.writeReg i v).clkEn = s.clkEn := rfl
@[simp] theorem State.writeReg_fault (i : Byte) (v : Word) : (s.writeReg i v).fault = s.fault := rfl
@[simp] theorem State.writeReg_out (i : Byte) (v : Word) : (s.writeReg i v).out = s.out := rfl
@[simp] theorem State.writeReg_draws (i : Byte) (v : Word) : (s.writeReg i v).draws = s.draws := rfl

@[simp] theorem State.writeCur_mem (v : Word) : (s.writeCur v).mem = s.mem := rfl
@[simp] theorem State.writeCur_x (v : Word) : (s.writeCur v).x = s.x.set s.cr.toNat v s.cr.isLt := rfl
@[simp] theorem State.writeCur_pc (v : Word) : (s.writeCur v).pc = s.pc := rfl
@[simp] theorem State.writeCur_cr (v : Word) : (s.writeCur v).cr = s.cr := rfl
@[simp] theorem State.writeCur_state (v : Word) : (s.writeCur v).state = s.state := rfl
@[simp] theorem State.writeCur_clkEn (v : Word) : (s.writeCur v).clkEn = s.clkEn := rfl
@[simp] theorem State.writeCur_fault (v : Word) : (s.writeCur v).fault = s.fault := rfl
@[simp] theorem State.writeCur_out (v : Word) : (s.writeCur v).out = s.out := rfl
@[simp] theorem State.writeCur_draws (v : Word) : (s.writeCur v).draws = s.draws := rfl

@[simp] theorem State.setCr_mem (i : Byte) : (s.setCr i).mem = s.mem := rfl
@[simp] theorem State.setCr_x (i : Byte) : (s.setCr i).x = s.x := rfl
@[simp] theorem State.setCr_pc (i : Byte) : (s.setCr i).pc = s.pc := rfl
@[simp] theorem State.setCr_cr (i : Byte) : (s.setCr i).cr = i := rfl
@[simp] theorem State.setCr_state (i : Byte) : (s.setCr i).state = s.state := rfl
@[simp] theorem State.setCr_clkEn (i : Byte) : (s.setCr i).clkEn = s.clkEn := rfl
@[simp] theorem State.setCr_fault (i : Byte) : (s.setCr i).fault = s.fault := rfl
@[simp] theorem State.setCr_out (i : Byte) : (s.setCr i).out = s.out := rfl
@[simp] theorem State.setCr_draws (i : Byte) : (s.setCr i).draws = s.draws := rfl

@[simp] theorem State.advance_mem (w : Nat) : (s.advance w).mem = s.mem := rfl
@[simp] theorem State.advance_x (w : Nat) : (s.advance w).x = s.x := rfl
@[simp] theorem State.advance_pc (w : Nat) : (s.advance w).pc = s.pc + BitVec.ofNat 9 w := rfl
@[simp] theorem State.advance_cr (w : Nat) : (s.advance w).cr = s.cr := rfl
@[simp] theorem State.advance_state (w : Nat) : (s.advance w).state = s.state := rfl
@[simp] theorem State.advance_clkEn (w : Nat) : (s.advance w).clkEn = s.clkEn := rfl
@[simp] theorem State.advance_fault (w : Nat) : (s.advance w).fault = s.fault := rfl
@[simp] theorem State.advance_out (w : Nat) : (s.advance w).out = s.out := rfl
@[simp] theorem State.advance_draws (w : Nat) : (s.advance w).draws = s.draws := rfl

@[simp] theorem State.emit_mem (v : Word) : (s.emit v).mem = s.mem := rfl
@[simp] theorem State.emit_x (v : Word) : (s.emit v).x = s.x := rfl
@[simp] theorem State.emit_pc (v : Word) : (s.emit v).pc = s.pc := rfl
@[simp] theorem State.emit_cr (v : Word) : (s.emit v).cr = s.cr := rfl
@[simp] theorem State.emit_state (v : Word) : (s.emit v).state = s.state := rfl
@[simp] theorem State.emit_clkEn (v : Word) : (s.emit v).clkEn = s.clkEn := rfl
@[simp] theorem State.emit_fault (v : Word) : (s.emit v).fault = s.fault := rfl
@[simp] theorem State.emit_out (v : Word) : (s.emit v).out = s.out ++ [v] := rfl
@[simp] theorem State.emit_draws (v : Word) : (s.emit v).draws = s.draws := rfl

@[simp] theorem State.halt_mem : (s.halt).mem = s.mem := rfl
@[simp] theorem State.halt_x : (s.halt).x = s.x := rfl
@[simp] theorem State.halt_pc : (s.halt).pc = s.pc := rfl
@[simp] theorem State.halt_cr : (s.halt).cr = s.cr := rfl
@[simp] theorem State.halt_state : (s.halt).state = .halted := rfl
@[simp] theorem State.halt_clkEn : (s.halt).clkEn = false := rfl
@[simp] theorem State.halt_fault : (s.halt).fault = s.fault := rfl
@[simp] theorem State.halt_out : (s.halt).out = s.out := rfl
@[simp] theorem State.halt_draws : (s.halt).draws = s.draws := rfl

@[simp] theorem State.enterFault_mem (f : Raise) : (s.enterFault f).mem = s.mem := rfl
@[simp] theorem State.enterFault_x (f : Raise) : (s.enterFault f).x = s.x := rfl
@[simp] theorem State.enterFault_pc (f : Raise) : (s.enterFault f).pc = s.pc := rfl
@[simp] theorem State.enterFault_cr (f : Raise) : (s.enterFault f).cr = s.cr := rfl
@[simp] theorem State.enterFault_state (f : Raise) : (s.enterFault f).state = .faulted := rfl
@[simp] theorem State.enterFault_clkEn (f : Raise) : (s.enterFault f).clkEn = false := rfl
@[simp] theorem State.enterFault_fault (f : Raise) : (s.enterFault f).fault = f.record s.pc s.draws := rfl
@[simp] theorem State.enterFault_out (f : Raise) : (s.enterFault f).out = s.out := rfl
@[simp] theorem State.enterFault_draws (f : Raise) : (s.enterFault f).draws = s.draws + 1 := rfl

@[simp] theorem State.stopRun_mem : (s.stopRun).mem = s.mem := rfl
@[simp] theorem State.stopRun_x : (s.stopRun).x = s.x := rfl
@[simp] theorem State.stopRun_pc : (s.stopRun).pc = s.pc := rfl
@[simp] theorem State.stopRun_cr : (s.stopRun).cr = s.cr := rfl
@[simp] theorem State.stopRun_state : (s.stopRun).state = s.state := rfl
@[simp] theorem State.stopRun_clkEn : (s.stopRun).clkEn = false := rfl
@[simp] theorem State.stopRun_fault : (s.stopRun).fault = s.fault := rfl
@[simp] theorem State.stopRun_out : (s.stopRun).out = s.out := rfl
@[simp] theorem State.stopRun_draws : (s.stopRun).draws = s.draws := rfl

@[simp] theorem State.startRun_mem : s.startRun.mem = s.mem := by
  unfold State.startRun; split <;> rfl
@[simp] theorem State.startRun_x : s.startRun.x = s.x := by
  unfold State.startRun; split <;> rfl
@[simp] theorem State.startRun_pc : s.startRun.pc = s.pc := by
  unfold State.startRun; split <;> rfl
@[simp] theorem State.startRun_cr : s.startRun.cr = s.cr := by
  unfold State.startRun; split <;> rfl
@[simp] theorem State.startRun_fault : s.startRun.fault = s.fault := by
  unfold State.startRun; split <;> rfl
@[simp] theorem State.startRun_out : s.startRun.out = s.out := by
  unfold State.startRun; split <;> rfl

@[simp] theorem State.startRun_draws : s.startRun.draws = s.draws := by
  unfold State.startRun; split <;> rfl

@[simp] theorem State.resetCore_mem : s.resetCore.mem = [] := rfl
@[simp] theorem State.resetCore_x : s.resetCore.x = Vector.replicate 256 0 := rfl
@[simp] theorem State.resetCore_pc : s.resetCore.pc = 0 := rfl
@[simp] theorem State.resetCore_cr : s.resetCore.cr = 0 := rfl
@[simp] theorem State.resetCore_state : s.resetCore.state = .idle := rfl
@[simp] theorem State.resetCore_clkEn : s.resetCore.clkEn = false := rfl
@[simp] theorem State.resetCore_fault : s.resetCore.fault = FaultRecord.clear := rfl
@[simp] theorem State.resetCore_out : s.resetCore.out = [] := rfl
@[simp] theorem State.resetCore_draws : s.resetCore.draws = s.draws := rfl

/-! What every fault record has in common, and what each fault makes valid (60_exceptions.md R150 to R154). -/

@[simp] theorem Raise.record_pc (p : Pc) (n : Nat) (f : Raise) : (f.record p n).pc = p := by
  cases f with
  | outOfBounds op a => cases op <;> rfl
  | _ => rfl

@[simp] theorem Raise.record_kind_ne_none (p : Pc) (n : Nat) (f : Raise) : (f.record p n).kind ≠ .none := by
  cases f with
  | outOfBounds op a => cases op <;> simp [Raise.record]
  | _ => simp [Raise.record]

theorem State.startRun_idle (h : s.state = .idle) : s.startRun = { s with state := .running, clkEn := true } := by
  simp [State.startRun, h]

theorem State.startRun_running (h : s.state = .running) : s.startRun = { s with clkEn := true } := by
  simp [State.startRun, h]

theorem State.startRun_halted (h : s.state = .halted) : s.startRun = s := by
  simp [State.startRun, h]

theorem State.startRun_faulted (h : s.state = .faulted) : s.startRun = s := by
  simp [State.startRun, h]

/-! Reads that an update leaves alone. -/

theorem State.readByte_congr {s t : State} (h : t.mem = s.mem) (a : Nat) : t.readByte a = s.readByte a := by
  simp [State.readByte, h]

theorem State.readReg_congr {s t : State} (h : t.x = s.x) (i : Byte) : t.readReg i = s.readReg i := by
  simp [State.readReg, h]

@[simp] theorem State.readByte_advance (w a : Nat) : (s.advance w).readByte a = s.readByte a := rfl
@[simp] theorem State.readByte_writeCur (v : Word) (a : Nat) : (s.writeCur v).readByte a = s.readByte a := rfl
@[simp] theorem State.readByte_setCr (i : Byte) (a : Nat) : (s.setCr i).readByte a = s.readByte a := rfl
@[simp] theorem State.readByte_emit (v : Word) (a : Nat) : (s.emit v).readByte a = s.readByte a := rfl
@[simp] theorem State.readByte_halt (a : Nat) : s.halt.readByte a = s.readByte a := rfl
@[simp] theorem State.readByte_enterFault (f : Raise) (a : Nat) : (s.enterFault f).readByte a = s.readByte a := rfl
@[simp] theorem State.readReg_advance (w : Nat) (i : Byte) : (s.advance w).readReg i = s.readReg i := rfl
@[simp] theorem State.readReg_setCr (j i : Byte) : (s.setCr j).readReg i = s.readReg i := rfl
@[simp] theorem State.readReg_emit (v : Word) (i : Byte) : (s.emit v).readReg i = s.readReg i := rfl
@[simp] theorem State.readReg_halt (i : Byte) : s.halt.readReg i = s.readReg i := rfl
@[simp] theorem State.readReg_enterFault (f : Raise) (i : Byte) : (s.enterFault f).readReg i = s.readReg i := rfl
@[simp] theorem State.readReg_storeByte (a : Nat) (v i : Byte) : (s.storeByte a v).readReg i = s.readReg i := rfl

/-- A register read after a register write (10_state.md R22). -/
theorem State.readReg_writeReg (i j : Byte) (v : Word) :
    (s.writeReg i v).readReg j = if j = i then v else s.readReg j := by
  by_cases h : j = i
  · subst h; simp [State.readReg]
  · have h' : i.toNat ≠ j.toNat := fun e => h (BitVec.eq_of_toNat_eq e.symm)
    simp [State.readReg, h, h']

/-- A register read after a write of the current register. -/
theorem State.readReg_writeCur (j : Byte) (v : Word) :
    (s.writeCur v).readReg j = if j = s.cr then v else s.readReg j :=
  s.readReg_writeReg s.cr j v

@[simp] theorem State.readReg_reset (i : Byte) : State.reset.readReg i = 0 := by
  simp [State.readReg, State.reset]

@[simp] theorem State.readByte_reset (a : Nat) : State.reset.readByte a = 0 := rfl

end Sys2Proof.Machine
end

