-- ==== Sys2Proof/Laws/Fetch.lean ====
section
/-! SUPPORT. What a fetch can do (40_fetch_decode_execute.md R81 to R84). -/

namespace Sys2Proof.Machine

theorem State.bytesFrom_above (s : State) {a : Nat} (h : 256 ≤ a) (n : Nat) : s.bytesFrom a n = [] := by
  cases n with
  | zero => rfl
  | succ n => simp [State.bytesFrom, show ¬ a < 256 by omega]

theorem State.bytesFrom_below (s : State) {a : Nat} (h : a < 256) (n : Nat) :
    s.bytesFrom a (n + 1) = s.readByte a :: s.bytesFrom (a + 1) n := by
  simp [State.bytesFrom, h]

/-- The fetched bytes depend on memory and `pc` alone. -/
theorem State.bytesFrom_congr {s t : State} {a n : Nat} (h : ∀ k, k < n → t.readByte (a + k) = s.readByte (a + k)) :
    t.bytesFrom a n = s.bytesFrom a n := by
  induction n generalizing a with
  | zero => rfl
  | succ n ih =>
    have h0 := h 0 (by omega)
    have h1 := ih (a := a + 1) fun k hk => by
      have := h (k + 1) (by omega)
      simpa [Nat.add_assoc, Nat.add_comm 1 k] using this
    simp only [State.bytesFrom, h1]
    simp only [Nat.add_zero] at h0
    rw [h0]

theorem State.fetch_ok {s : State} {i : Instr} {rest : List Byte} (h : decode s.fetchBytes = .ok (i, rest)) :
    s.fetch = .ok i := by
  simp [State.fetch, h]

theorem State.fetch_error {s : State} {r : Reject} (h : decode s.fetchBytes = .error r) :
    s.fetch = .error (rejectRaise s.pc r) := by
  simp [State.fetch, h]

/-- An opcode fetch out of range (R82). -/
theorem State.fetch_above {s : State} (h : 256 ≤ s.pc.toNat) : s.fetch = .error (.outOfBounds none s.pc.toNat) :=
  State.fetch_error (by rw [State.fetchBytes, s.bytesFrom_above h]; rfl)

/-- An opcode without handler (R84). -/
theorem State.fetch_noHandler {s : State} (h : s.pc.toNat < 256) (hop : lut (s.readByte s.pc.toNat) = none) :
    s.fetch = .error (.invalidInstruction (s.readByte s.pc.toNat)) :=
  State.fetch_error (r := .noHandler (s.readByte s.pc.toNat)) (by
    rw [State.fetchBytes, s.bytesFrom_below h]; exact decode_noHandler hop _)

end Sys2Proof.Machine
end

