-- ==== Sys2Proof/Laws/Memory.lean ====
section
/-! SUPPORT. The laws of the memory list: reads after writes, and that every memory operation keeps the canonical form. -/

namespace Sys2Proof.Machine

theorem Memory.wf_nil : Memory.wf [] := by simp [Memory.wf]

/-- A canonical list is a first cell below all others, with a byte that is not 0x00, and a canonical rest. -/
theorem Memory.wf_cons {c : Host.Cell} {m : Memory} :
    Memory.wf (c :: m) ↔ (∀ d ∈ m, c.1 < d.1) ∧ c.1 < 256 ∧ c.2 ≠ 0 ∧ Memory.wf m := by
  simp only [Memory.wf, List.pairwise_cons, List.forall_mem_cons, Config.memSize]
  tauto

/-- An address below every listed one reads as 0x00. -/
theorem Memory.read_below {m : Memory} {a : Nat} (h : ∀ d ∈ m, a < d.1) : Memory.read m a = 0 := by
  induction m with
  | nil => rfl
  | cons c m ih =>
    have h1 := h c (by simp)
    have h2 := ih fun d hd => h d (by simp [hd])
    have h3 : a ≠ c.1 := by omega
    simp [Memory.read, h3, h2]

/-- An address of 256 or more is listed in no canonical memory. -/
theorem Memory.read_above {m : Memory} (hm : Memory.wf m) {a : Nat} (h : 256 ≤ a) : Memory.read m a = 0 := by
  induction m with
  | nil => rfl
  | cons c m ih =>
    obtain ⟨-, h1, -, h2⟩ := Memory.wf_cons.1 hm
    have h3 : a ≠ c.1 := by omega
    simp [Memory.read, h3, ih h2]

theorem Memory.read_cons {m : Memory} {a : Nat} (v : Byte) (h : ∀ d ∈ m, a < d.1) (b : Nat) :
    Memory.read (Memory.cons a v m) b = if b = a then v else Memory.read m b := by
  unfold Memory.cons
  split
  · next hv =>
    split
    · next hb => rw [hb, hv, Memory.read_below h]
    · rfl
  · rfl

theorem Memory.cons_wf {m : Memory} {a : Nat} {v : Byte} (ha : a < 256) (h : ∀ d ∈ m, a < d.1) (hm : Memory.wf m) :
    Memory.wf (Memory.cons a v m) := by
  unfold Memory.cons
  split
  · exact hm
  · next hv => exact Memory.wf_cons.2 ⟨h, ha, hv, hm⟩

/-- Every cell of a written memory is the written one or an old one. -/
theorem Memory.mem_write {m : Memory} {a : Nat} {v : Byte} {d : Host.Cell} (h : d ∈ Memory.write m a v) :
    d = (a, v) ∨ d ∈ m := by
  induction m with
  | nil =>
    simp only [Memory.write, Memory.cons] at h
    split at h <;> simp_all
  | cons c m ih =>
    obtain ⟨b, w⟩ := c
    simp only [Memory.write, Memory.cons] at h
    split at h
    · split at h
      · exact .inr h
      · simpa using h
    · split at h
      · split at h
        · exact .inr (by simp [h])
        · rcases List.mem_cons.1 h with h | h
          · exact .inl h
          · exact .inr (by simp [h])
      · rcases List.mem_cons.1 h with h | h
        · exact .inr (by simp [h])
        · rcases ih h with h | h
          · exact .inl h
          · exact .inr (by simp [h])

/-- A write keeps the canonical form. -/
theorem Memory.write_wf {m : Memory} (hm : Memory.wf m) {a : Nat} (ha : a < 256) (v : Byte) :
    Memory.wf (Memory.write m a v) := by
  induction m with
  | nil => exact Memory.cons_wf ha (by simp) Memory.wf_nil
  | cons c m ih =>
    obtain ⟨b, w⟩ := c
    obtain ⟨h1, h2, h3, h4⟩ := Memory.wf_cons.1 hm
    simp only [Memory.write]
    split
    · next hab =>
      refine Memory.cons_wf ha (fun d hd => ?_) hm
      rcases List.mem_cons.1 hd with rfl | hd
      · exact hab
      · exact Nat.lt_trans hab (h1 d hd)
    · split
      · next hab => exact Memory.cons_wf ha (fun d hd => hab ▸ h1 d hd) h4
      · next hlt hne =>
        refine Memory.wf_cons.2 ⟨fun d hd => ?_, h2, h3, ih h4⟩
        rcases Memory.mem_write hd with rfl | hd
        · show b < a
          omega
        · exact h1 d hd

/-- A read after a write: the byte written at its address, and the old byte everywhere else. -/
theorem Memory.read_write {m : Memory} (hm : Memory.wf m) (a : Nat) (v : Byte) (b : Nat) :
    Memory.read (Memory.write m a v) b = if b = a then v else Memory.read m b := by
  induction m with
  | nil => exact Memory.read_cons v (by simp) b
  | cons c m ih =>
    obtain ⟨k, w⟩ := c
    obtain ⟨h1, -, -, h4⟩ := Memory.wf_cons.1 hm
    simp only [Memory.write]
    split
    · next hak =>
      refine Memory.read_cons v (fun d hd => ?_) b
      rcases List.mem_cons.1 hd with rfl | hd
      · exact hak
      · exact Nat.lt_trans hak (h1 d hd)
    · split
      · next hak =>
        rw [Memory.read_cons v (fun d hd => hak ▸ h1 d hd)]
        by_cases hb : b = a <;> simp [Memory.read, hb, ← hak]
      · next hne =>
        simp only [Memory.read, ih h4]
        by_cases hb : b = k
        · have : ¬ b = a := fun e => hne (e ▸ hb)
          simp [hb]; intro e; exact absurd e (fun e => hne e.symm)
        · simp [hb]

/-- A stored byte, read back through the state. -/
theorem State.readByte_storeByte {s : State} (hm : s.mem.wf) (a : Nat) (v : Byte) (b : Nat) :
    (s.storeByte a v).readByte b = if b = a then v else s.readByte b :=
  Memory.read_write hm a v b

theorem State.storeByte_wf {s : State} (hm : s.mem.wf) {a : Nat} (ha : a < 256) (v : Byte) :
    (s.storeByte a v).mem.wf :=
  Memory.write_wf hm ha v

/-- Storing a list of bytes keeps the canonical form. -/
theorem State.storeBytes_wf {s : State} (hm : s.mem.wf) (a : Nat) (bytes : List Byte) :
    (s.storeBytes a bytes).mem.wf := by
  induction bytes generalizing s a with
  | nil => exact hm
  | cons v rest ih =>
    simp only [State.storeBytes, Config.memSize]
    split
    · next ha => exact ih (State.storeByte_wf hm ha v) (a + 1)
    · exact hm

/-- The memory after reset is canonical. -/
theorem State.reset_mem_wf : State.reset.mem.wf := Memory.wf_nil

end Sys2Proof.Machine
end

