-- ==== Sys2Proof/Laws/Operands.lean ====
section
/-! SUPPORT. What the operand fetches can do (43_arithmetic.md R115). -/

namespace Sys2Proof.Machine

theorem firstOutOfRange_none {a n : Nat} (h : a + n ≤ 256) : firstOutOfRange a n = none := by
  induction n generalizing a with
  | zero => rfl
  | succ n ih =>
    have h1 : a < 256 := by omega
    simp [firstOutOfRange, h1, ih (show a + 1 + n ≤ 256 by omega)]

/-- From inside memory, the first read out of range is the one at 256. -/
theorem firstOutOfRange_some {a n : Nat} (ha : a ≤ 256) (h : 256 < a + n) : firstOutOfRange a n = some 256 := by
  induction n generalizing a with
  | zero => omega
  | succ n ih =>
    by_cases h1 : a < 256
    · simp [firstOutOfRange, h1, ih (show a + 1 ≤ 256 by omega) (by omega)]
    · have h2 : a = 256 := by omega
      simp [firstOutOfRange, h2]

/-- With every operand byte in memory the handler goes on. -/
theorem withOperands_fits {op : Byte} {n : Nat} {s next : State} (h : s.pc.toNat + 1 + n ≤ 256) :
    withOperands op n s next = next := by
  simp [withOperands, State.missingOperand, firstOutOfRange_none h]

/-- With an operand byte beyond address 255 the handler raises `OutOfBounds` at 256. -/
theorem withOperands_missing {op : Byte} {n : Nat} {s next : State} (hp : s.pc.toNat < 256)
    (h : 256 < s.pc.toNat + 1 + n) : withOperands op n s next = s.enterFault (.outOfBounds (some op) 256) := by
  simp [withOperands, State.missingOperand, firstOutOfRange_some (show s.pc.toNat + 1 ≤ 256 by omega) h]

/-- Everything the operand fetches can do: go on, or enter an `OutOfBounds` fault. -/
theorem withOperands_cases (op : Byte) (n : Nat) (s next : State) :
    withOperands op n s next = next ∨ ∃ a, withOperands op n s next = s.enterFault (.outOfBounds (some op) a) := by
  unfold withOperands
  split
  · exact .inl rfl
  · exact .inr ⟨_, rfl⟩

end Sys2Proof.Machine
end

