-- ==== Sys2Proof/Laws/Step.lean ====
section
/-! SUPPORT. What a step can do, said once (40_fetch_decode_execute.md R80, R81). -/

namespace Sys2Proof.Machine

theorem State.ticking_iff (s : State) : s.ticking = true ↔ s.state = .running ∧ s.clkEn = true := by
  simp [State.ticking]

/-- A handler always answers a next state: the spec's faults are next states too (60_exceptions.md R153). -/
theorem exec_total (i : Instr) (s : State) : ∃ t, exec i s = .next t := by
  cases i <;> exact ⟨_, rfl⟩

theorem step_inert {s : State} (h : s.ticking = false) : step s = .next s := by simp [step, h]

theorem step_fetched {s : State} {i : Instr} (h : s.ticking = true) (hf : s.fetch = .ok i) : step s = exec i s := by
  simp [step, h, hf]

theorem step_raises {s : State} {f : Raise} (h : s.ticking = true) (hf : s.fetch = .error f) :
    step s = .next (s.enterFault f) := by
  simp [step, h, hf]

/-- Everything a step can do: nothing, fault entry on a failed fetch, or the handler of the fetched instruction. -/
theorem step_cases {s t : State} (h : step s = .next t) :
    (s.ticking = false ∧ t = s) ∨
    (s.ticking = true ∧ ∃ f, s.fetch = .error f ∧ t = s.enterFault f) ∨
    (s.ticking = true ∧ ∃ i, s.fetch = .ok i ∧ exec i s = .next t) := by
  unfold step at h
  split at h
  · next hk => cases h; exact .inl ⟨hk, rfl⟩
  · next hk =>
    split at h
    · next i hf => exact .inr (.inr ⟨hk, i, hf, h⟩)
    · next f hf => cases h; exact .inr (.inl ⟨hk, f, hf, rfl⟩)

end Sys2Proof.Machine
end

