-- ==== Sys2Proof/Laws/HostInterface.lean ====
section
/-! SUPPORT. What each host command can do (40_fetch_decode_execute.md R91 to R95). -/

namespace Sys2Proof.Machine

@[simp] theorem runCommand_start (s : State) : runCommand .start s = .next (s.startRun, .done) := rfl
@[simp] theorem runCommand_stop (s : State) : runCommand .stop s = .next (s.stopRun, .done) := rfl
@[simp] theorem runCommand_reset (s : State) : runCommand .reset s = .next (s.resetCore, .done) := rfl

theorem runCommand_tick {s t : State} {r : Reply} (h : runCommand .tick s = .next (t, r)) :
    step s = .next t ∧ r = .done := by
  simp only [runCommand, tickCommand] at h
  split at h
  · next u hu => cases h; exact ⟨hu, rfl⟩
  · cases h
  · cases h

/-- An admitted `poke` writes one cell below 256, or returns an error and changes nothing. -/
theorem runCommand_poke {s t : State} {a : Nat} {v : Byte} {r : Reply} (h : runCommand (.poke a v) s = .next (t, r)) :
    s.state ≠ .running ∧
      ((a < 256 ∧ t = s.storeByte a v ∧ r = .done) ∨ (256 ≤ a ∧ t = s ∧ r = .outOfBoundsError)) := by
  simp only [runCommand, pokeCommand, Config.memSize] at h
  split at h
  · cases h
  · next hr =>
    split at h
    · next ha => cases h; exact ⟨hr, .inl ⟨ha, rfl, rfl⟩⟩
    · next ha => cases h; exact ⟨hr, .inr ⟨by omega, rfl, rfl⟩⟩

/-- A `peek` changes nothing. -/
theorem runCommand_peek {s t : State} {a : Nat} {r : Reply} (h : runCommand (.peek a) s = .next (t, r)) :
    t = s ∧ ((a < 256 ∧ r = .byte (s.readByte a)) ∨ (256 ≤ a ∧ r = .outOfBoundsError)) := by
  simp only [runCommand, peekCommand, Config.memSize] at h
  split at h
  · next ha => cases h; exact ⟨rfl, .inl ⟨ha, rfl⟩⟩
  · next ha => cases h; exact ⟨rfl, .inr ⟨by omega, rfl⟩⟩

end Sys2Proof.Machine
end

