-- ==== Sys2Proof/Laws/PerInstr.lean ====
section
/-! SUPPORT. What holds of every instruction as syntax, per constructor: its encoding begins with an opcode whose table row
has its handler, its length in bytes and its operand count (30_encoding.md R64 to R66), and is that long. -/

namespace Sys2Proof

/-- The table row of the instruction's opcode is the row of the instruction (R39, R64). -/
def Laws.TableRow.Statement (i : Instr) : Prop :=
  lut i.opcode = some ⟨i.handler, i.length, i.operandBytes.length⟩ ∧ (encode i).length = i.length

theorem Laws.TableRow.halt : Laws.TableRow.Statement .halt := ⟨rfl, rfl⟩
theorem Laws.TableRow.init : Laws.TableRow.Statement .init := ⟨rfl, rfl⟩
theorem Laws.TableRow.set (i : Byte) : Laws.TableRow.Statement (.set i) := ⟨rfl, rfl⟩
theorem Laws.TableRow.save (n : Byte) : Laws.TableRow.Statement (.save n) := ⟨rfl, rfl⟩
theorem Laws.TableRow.mul (a b : Byte) : Laws.TableRow.Statement (.mul a b) := ⟨rfl, rfl⟩
theorem Laws.TableRow.prn : Laws.TableRow.Statement .prn := ⟨rfl, rfl⟩
theorem Laws.TableRow.sub (a b : Byte) : Laws.TableRow.Statement (.sub a b) := ⟨rfl, rfl⟩
theorem Laws.TableRow.add (a b : Byte) : Laws.TableRow.Statement (.add a b) := ⟨rfl, rfl⟩
theorem Laws.TableRow.div (a b : Byte) : Laws.TableRow.Statement (.div a b) := ⟨rfl, rfl⟩

end Sys2Proof
end

