-- ==== Sys2Proof/Tests/Slice0.lean ====
section
/-! SUPPORT. Tests of the model against the spec's own vectors (95_test_vectors.md, cited by their names V-…), and witnesses
that the hypotheses of the obligations can be met, at the boundary values of their clauses. -/

namespace Sys2Proof.Tests

open Sys2Proof.Machine

/-- Running at `p` with `bytes` there, everything else as after reset. -/
def ready (p : Nat) (bytes : List Byte) : State :=
  { State.reset.storeBytes p bytes with pc := BitVec.ofNat 9 p, state := .running, clkEn := true }

/-- One field of the next state, if there is one. -/
def after {α : Type} (o : Host.Outcome State Fault Refusal) (f : State → α) : Option α :=
  match o with
  | .next s => some (f s)
  | .fault _ => none
  | .refused _ => none

/-- One field of the state after a tick. -/
def tick {α : Type} (s : State) (f : State → α) : Option α := after (step s) f

/-- Registers 1 and 2 loaded, and the current register 3 (the setting of the V-A vectors). -/
def alu (bytes : List Byte) (u v : Word) : State := ((((ready 0 bytes).writeReg 1 u).writeReg 2 v).setCr 3)

/-! Well-formedness: a term each check refuses -/

theorem test_fitsAt_refuses_set_at_255 : (Instr.set 9).fitsAt 255 = false := by decide
theorem test_fitsAt_refuses_add_at_254 : (Instr.add 1 2).fitsAt 254 = false := by decide
theorem test_fitsAt_allows_add_at_253 : (Instr.add 1 2).fitsAt 253 = true := by decide
theorem test_programFits_refuses_257 : programFits (List.replicate 257 0) = false := by
  rw [programFits, List.length_replicate]; decide

/-! Decoding: words written out from 30_encoding.md R61, R64, bit by bit -/

theorem test_decode_halt : decode [0b00000000] = .ok (.halt, []) := by rfl
theorem test_decode_init : decode [0b00000001] = .ok (.init, []) := by rfl
theorem test_decode_set : decode [0b00000010, 0b11111110] = .ok (.set 254, []) := by rfl
theorem test_decode_save : decode [0b00000100, 0b00001000] = .ok (.save 8, []) := by rfl
theorem test_decode_mul : decode [0b00000101, 0b00000000, 0b00000001] = .ok (.mul 0 1, []) := by rfl
theorem test_decode_prn : decode [0b00000110] = .ok (.prn, []) := by rfl
theorem test_decode_sub : decode [0b00000111, 0b10000000, 0b00000001] = .ok (.sub 128 1, []) := by rfl
theorem test_decode_add : decode [0b00001000, 0b00000100, 0b00000001] = .ok (.add 4 1, []) := by rfl
theorem test_decode_div : decode [0b00001001, 0b00000010, 0b00000011] = .ok (.div 2 3, []) := by rfl
/-- The example of an unknown opcode in R67. -/
theorem test_decode_rejects_0F : decode [0b00001111, 0x01] = .error (.noHandler 0x0F) := by rfl
theorem test_decode_rejects_03 : decode [0b00000011] = .error (.noHandler 0x03) := by rfl
theorem test_decode_rejects_short_add : decode [0b00001000, 0x04] = .error (.noOperand 0x08 2) := by rfl
/-- The table numbers bits from the first byte upward, so the second operand is the most significant byte. -/
theorem test_table_word_div : decodeTableWord 24 0x030209 = some (.div 2 3) := by decide
theorem test_table_word_short : decodeTableWord 8 0x030208 = some (.add 0 0) := by decide
theorem test_table_word_illegal : decodeTableWord 8 0x0A = none := by decide
/-- The opcode map's rows have distinct opcodes (R65). -/
theorem test_opcodes_distinct : (opcodeMap.map Prod.fst).Pairwise (· ≠ ·) := by decide

/-! Instructions -/

/-- V-L1-7. -/
theorem test_init_any_prior : tick ((ready 0 [0x01]).setCr 0xFF) (fun t => (t.cr, t.pc)) = some (0, 1) := by decide
/-- V-P-7. -/
theorem test_init_at_255 : tick ((ready 255 [0x01]).setCr 4) (fun t => (t.cr, t.pc)) = some (0, 256) := by decide
/-- V-P-3. -/
theorem test_set_255 : tick (ready 10 [0x02, 0xFF]) (fun t => (t.cr, t.pc)) = some (255, 12) := by decide
/-- V-P-5. -/
theorem test_set_at_255 : tick ((ready 255 [0x02]).setCr 4) (fun t => (t.state, t.fault, t.cr, t.pc)) =
    some (.faulted, ⟨.outOfBounds, 255, 0x02, true, 256, true⟩, 4, 255) := by decide
/-- V-S-2. -/
theorem test_save_zero_extends : tick ((ready 0 [0x04, 0xFF]).setCr 200) (fun t => (t.readReg 200, t.pc)) =
    some (0x000000FF, 2) := by decide
/-- V-S-5. -/
theorem test_save_at_255 : tick ((ready 255 [0x04]).writeReg 0 9) (fun t => (t.state, t.fault.addrValid, t.fault.addr, t.readReg 0, t.pc)) =
    some (.faulted, true, 256, 9, 255) := by decide
/-- V-A-6. -/
theorem test_mul_wraps : tick (alu [0x05, 1, 2] 0x0000FFFF 0x0000FFFF) (fun t => (t.readReg 3, t.pc)) =
    some (0xFFFE0001, 3) := by decide
/-- V-A-28. -/
theorem test_mul_reads_old_value : tick ((alu [0x05, 1, 2] 3 5).setCr 1) (fun t => t.readReg 1) = some 15 := by decide
/-- V-A-8. -/
theorem test_sub_order : tick (alu [0x07, 1, 2] 7 10) (fun t => t.readReg 3) = some 0xFFFFFFFD := by decide
/-- V-A-10. -/
theorem test_sub_signed_overflow : tick (alu [0x07, 1, 2] 0x80000000 1) (fun t => (t.state, t.readReg 3)) =
    some (.running, 0x7FFFFFFF) := by decide
/-- V-A-12. -/
theorem test_add_wraps : tick (alu [0x08, 1, 2] 0xFFFFFFFF 1) (fun t => t.readReg 3) = some 0 := by decide
/-- V-A-33. -/
theorem test_add_at_253 : tick (((ready 253 [0x08, 1, 2]).writeReg 1 2).writeReg 2 3) (fun t => (t.readReg 0, t.pc)) =
    some (5, 256) := by decide
/-- V-A-17. -/
theorem test_div_toward_zero : tick (alu [0x09, 1, 2] 0xFFFFFFF9 2) (fun t => t.readReg 3) = some 0xFFFFFFFD := by decide
/-- V-A-25. -/
theorem test_div_by_zero : tick (alu [0x09, 1, 2] 5 0) (fun t => (t.state, t.fault.kind, t.fault.opcode, t.fault.addrValid, t.readReg 3, t.pc)) =
    some (.faulted, .divideByZero, 0x09, false, 0, 0) := by decide
/-- V-O-3. -/
theorem test_prn_emits : tick (((ready 0 [0x06]).writeReg 2 0xFFFFFFFD).setCr 2) (fun t => (t.out, t.pc)) =
    some ([0xFFFFFFFD], 1) := by decide
/-- V-O-4 (the rendering). -/
theorem test_prn_shown : signedDecimal 0x80000000 = "-2147483648" := by decide
/-- V-O-6. -/
theorem test_halt : tick (ready 6 [0x00]) (fun t => (t.state, t.clkEn, t.pc)) = some (.halted, false, 6) := by decide

/-! Ticks, faults and the host -/

/-- V-F-1. -/
theorem test_tick_in_idle : tick State.reset id = some State.reset := by rfl
/-- V-F-5. -/
theorem test_illegal_FF : tick (ready 0 [0xFF])
    (fun t => (t.state, t.fault.kind, t.fault.pc, t.fault.opcode, t.fault.opcodeValid, t.fault.addrValid)) =
    some (.faulted, .invalidInstruction, 0, 0xFF, true, false) := by decide
/-- V-F-6. -/
theorem test_fetch_at_256 : tick (ready 256 [])
    (fun t => (t.fault.kind, t.fault.pc, t.fault.opcodeValid, t.fault.addr, t.pc)) =
    some (.outOfBounds, 256, false, 256, 256) := by decide
/-- V-A-32. -/
theorem test_mul_at_255 : tick (ready 255 [0x05]) (fun t => t.fault) =
    some ⟨.outOfBounds, 255, 0x05, true, 256, true⟩ := by decide
/-- V-A-34. -/
theorem test_div_range_before_divisor : tick (ready 254 [0x09, 0]) (fun t => t.fault.kind) = some .outOfBounds := by decide
/-- V-F-7, V-F-8. -/
theorem test_stop_start : after (runCommands [.stop, .tick, .start, .tick] (ready 0 [0x01])) (fun t => t.pc) = some 1 := by
  decide
/-- V-F-11. -/
theorem test_poke_256 : runCommand (.poke 256 1) State.reset = .next (State.reset, .outOfBoundsError) := by rfl
/-- V-F-13. -/
theorem test_poke_halted : runCommand (.peek 5) ((ready 0 []).halt.storeByte 5 7) =
    .next ((ready 0 []).halt.storeByte 5 7, .byte 7) := by rfl
/-- V-L1-1, its first tick after the boot order R178. -/
theorem test_boot : after (boot [0x01, 0x02, 0x00, 0x04, 0x08, 0x06, 0x00] (ready 9 [0xFF]).halt)
    (fun t => (t.pc, t.state, t.clkEn, t.readByte 4, t.readByte 9)) = some (0, .running, true, 8, 0) := by decide
/-- The next tick runs the placed instruction, from reset and from the top of memory. -/
theorem test_withFetchWord_reset : tick (State.reset.withFetchWord 16 0x0504) (fun t => t.readReg 0) = some 5 := by decide
theorem test_withFetchWord_top : tick ((ready 256 []).withFetchWord 16 0x0702) (fun t => (t.cr, t.pc)) = some (7, 2) := by
  decide
/-- R37, R176: the fault record after reset, data bits included. -/
theorem test_reset_fault_bits : (pinsOut State.reset State.reset .done).faultOpcode = 0 ∧
    (pinsOut State.reset State.reset .done).faultOpcodeValid = false ∧
    (pinsOut State.reset State.reset .done).faultAddr = 0 ∧ (pinsOut State.reset State.reset .done).faultAddrValid = false := by
  decide
/-- V-F-14: reset from Faulted clears the record. -/
theorem test_reset_from_faulted : after (runCommands [.reset] ((ready 0 []).enterFault (.invalidInstruction 3)))
    (fun t => (t.state, t.fault)) = some (.idle, ⟨.none, 0, 0, false, 0, false⟩) := by decide
/-- Two acts at once get no step (R96). -/
theorem test_two_acts : clockPins ⟨false, true, true, false, false, false, 0, 0⟩ State.reset = .refused .simultaneousActs := by
  rfl

/-! Witnesses: states and operands that meet the hypotheses of the obligations -/

theorem test_wit_step_runs_decoded :
    (ready 0 [0x02, 9]).live ∧ decode (ready 0 [0x02, 9]).fetchBytes = .ok (.set 9, [0]) := ⟨⟨rfl, rfl⟩, rfl⟩

theorem test_wit_placed : (ready 253 [0x05, 1, 2]).live ∧
    (ready 253 [0x05, 1, 2]).holdsAt (ready 253 [0x05, 1, 2]).pc.toNat (encode (.mul 1 2)) := by
  refine ⟨⟨rfl, rfl⟩, fun k b h => ?_⟩
  match k with
  | 0 => cases h; decide
  | 1 => cases h; decide
  | 2 => cases h; decide
  | k + 3 => cases h

theorem test_wit_inert : ¬ (State.reset.state = .running ∧ State.reset.clkEn = true) := by decide
theorem test_wit_inert_paused : ¬ ((ready 0 []).stopRun.state = .running ∧ (ready 0 []).stopRun.clkEn = true) := by decide

theorem test_wit_past_top : (ready 256 []).live ∧ (ready 256 []).pc = 256 := ⟨⟨rfl, rfl⟩, rfl⟩
theorem test_wit_past_top_reached :
    (ready 255 [0x06]).pc.toNat < 256 ∧ ∃ t, step (ready 255 [0x06]) = .next t ∧ t.pc = 256 :=
  ⟨by decide, _, rfl, rfl⟩

theorem test_wit_illegal : (ready 255 [0x03]).live ∧ (ready 255 [0x03]).pc.toNat < 256 ∧
    (ready 255 [0x03]).readByte (ready 255 [0x03]).pc.toNat = 0x03 := ⟨⟨rfl, rfl⟩, by decide, by decide⟩
theorem test_wit_illegal_0A : (ready 0 [0x0A]).live ∧ (ready 0 [0x0A]).readByte 0 = 0x0A ∧ 0x0A ≤ (0x0A : Byte).toNat :=
  ⟨⟨rfl, rfl⟩, by decide, by decide⟩

theorem test_wit_order_fetch : (ready 256 []).live ∧ 256 ≤ (ready 256 []).pc.toNat := ⟨⟨rfl, rfl⟩, by decide⟩
theorem test_wit_order_illegal : (ready 255 [0xFF]).live ∧ (ready 255 [0xFF]).pc.toNat < 256 ∧
    lut ((ready 255 [0xFF]).readByte 255) = none := ⟨⟨rfl, rfl⟩, by decide, by decide⟩
theorem test_wit_order_first : (ready 255 [0x04]).live ∧ (ready 255 [0x04]).pc.toNat = 255 ∧
    lut ((ready 255 [0x04]).readByte 255) = some ⟨.save, 2, 1⟩ := ⟨⟨rfl, rfl⟩, by decide, by decide⟩
theorem test_wit_order_second : (ready 254 [0x09]).live ∧ (ready 254 [0x09]).pc.toNat = 254 ∧
    lut ((ready 254 [0x09]).readByte 254) = some ⟨.div, 3, 2⟩ := ⟨⟨rfl, rfl⟩, by decide, by decide⟩
theorem test_wit_order_divisor : (ready 253 [0x09, 1, 2]).live ∧ (ready 253 [0x09, 1, 2]).pc.toNat ≤ 253 ∧
    (ready 253 [0x09, 1, 2]).readByte 253 = 0x09 ∧
    (ready 253 [0x09, 1, 2]).readReg ((ready 253 [0x09, 1, 2]).readByte (253 + 2)) = 0 :=
  ⟨⟨rfl, rfl⟩, by decide, by decide, by decide⟩
theorem test_wit_order_none : (ready 255 [0x00]).live ∧ lut ((ready 255 [0x00]).readByte 255) = some ⟨.halt, 1, 0⟩ ∧
    (ready 255 [0x00]).pc.toNat + 1 ≤ 256 := ⟨⟨rfl, rfl⟩, by decide, by decide⟩

theorem test_wit_precise : (ready 0 [0x03]).live ∧ ∃ t, step (ready 0 [0x03]) = .next t ∧ t.state = .faulted :=
  ⟨⟨rfl, rfl⟩, _, rfl, rfl⟩

theorem test_wit_reads_only : ∃ (s t : State) (m : Memory),
    (∀ k, k = 0 ∨ (∃ e, lut (s.readByte s.pc.toNat) = some e ∧ k ≤ e.operands) →
      Memory.read m (s.pc.toNat + k) = s.readByte (s.pc.toNat + k)) ∧ m ≠ s.mem ∧ step s = .next t := by
  refine ⟨ready 0 [0x02, 9], _, [(0, 0x02), (1, 9), (2, 7)], fun k h => ?_, by decide, rfl⟩
  have hk : k ≤ 1 := by
    rcases h with rfl | ⟨e, he, hk⟩
    · omega
    · cases he; exact hk
  match k with
  | 0 => decide
  | 1 => decide
  | k + 2 => omega

theorem test_wit_init_at_255 : (ready 255 [0x01]).live ∧ (ready 255 [0x01]).pc = 255 ∧
    ∃ t, exec .init (ready 255 [0x01]) = .next t := ⟨⟨rfl, rfl⟩, rfl, _, rfl⟩
theorem test_wit_prn_at_255 : (ready 255 [0x06]).live ∧ (ready 255 [0x06]).pc = 255 ∧
    ∃ t, exec .prn (ready 255 [0x06]) = .next t := ⟨⟨rfl, rfl⟩, rfl, _, rfl⟩
theorem test_wit_f2_fits : (ready 254 []).pc.toNat + 1 < 256 := by decide
theorem test_wit_f2_missing : (ready 255 []).pc = 255 := by decide
theorem test_wit_f3_fits : (ready 253 []).pc.toNat ≤ 253 := by decide
theorem test_wit_f3_missing : (ready 254 []).pc = 254 ∧ (ready 255 []).pc = 255 := by decide
theorem test_wit_div_nonzero : (alu [0x09, 1, 2] 7 2).pc.toNat ≤ 253 ∧ (alu [0x09, 1, 2] 7 2).readReg 2 ≠ 0 := by decide
theorem test_wit_div_zero : (alu [0x09, 1, 2] 7 0).pc.toNat ≤ 253 ∧ (alu [0x09, 1, 2] 7 0).readReg 2 = 0 := by decide
theorem test_wit_halt_next : ∃ t, exec .halt (ready 0 []) = .next t := ⟨_, rfl⟩
theorem test_wit_halt_unloaded : (ready 255 []).live ∧ (ready 255 []).pc.toNat < 256 ∧
    (ready 255 []).readByte 255 = State.reset.readByte 255 := ⟨⟨rfl, rfl⟩, by decide, by decide⟩
theorem test_wit_arith_fetch : (ready 254 [0x05, 1]).live ∧ (ready 254 [0x05, 1]).pc.toNat < 256 ∧
    (ready 254 [0x05, 1]).readByte 254 = Handler.mul.opcode ∧ 254 ≤ (ready 254 [0x05, 1]).pc.toNat :=
  ⟨⟨rfl, rfl⟩, by decide, by decide, by decide⟩
theorem test_wit_arith_fetch_fits : (ready 253 [0x07, 1, 2]).live ∧ (ready 253 [0x07, 1, 2]).pc.toNat ≤ 253 ∧
    (ready 253 [0x07, 1, 2]).readByte 253 = Handler.sub.opcode := ⟨⟨rfl, rfl⟩, by decide, by decide⟩
theorem test_wit_quotient : (1 : Word) ≠ 0 ∧ ¬ ((0x80000000 : Word) = 0x80000000 ∧ (1 : Word) = 0xFFFFFFFF) := by decide
theorem test_wit_quotient_wraps : (alu [] 0x80000000 0xFFFFFFFF).pc.toNat ≤ 253 ∧
    (alu [] 0x80000000 0xFFFFFFFF).readReg 1 = 0x80000000 ∧ (alu [] 0x80000000 0xFFFFFFFF).readReg 2 = 0xFFFFFFFF := by
  decide
theorem test_wit_sources : ((alu [] 5 7).setCr 1).pc.toNat ≤ 253 ∧ ((alu [] 5 7).setCr 1).readReg ((alu [] 5 7).setCr 1).cr ≠ 0 := by
  decide

theorem test_wit_frame_pointer_fits : ∃ t, exec (.set 9) (ready 254 []) = .next t ∧ (ready 254 []).pc.toNat + 1 < 256 :=
  ⟨_, rfl, by decide⟩
theorem test_wit_frame_pointer_missing : ∃ t, exec (.set 9) (ready 255 []) = .next t ∧ 256 ≤ (ready 255 []).pc.toNat + 1 :=
  ⟨_, rfl, by decide⟩
theorem test_wit_frame_init : ∃ t, exec .init (ready 0 []) = .next t := ⟨_, rfl⟩
theorem test_wit_frame_writers_fits : ∃ t, exec (.div 1 2) (alu [] 7 2) = .next t ∧
    (alu [] 7 2).pc.toNat + (Instr.div 1 2).length ≤ 256 ∧ (alu [] 7 2).readReg 2 ≠ 0 := ⟨_, rfl, by decide, by decide⟩
theorem test_wit_frame_writers_faults : (∃ t, exec (.save 1) (ready 255 []) = .next t) ∧
    256 < (ready 255 []).pc.toNat + (Instr.save 1).length := ⟨⟨_, rfl⟩, by decide⟩
theorem test_wit_frame_writers_divisor : (∃ t, exec (.div 1 2) (ready 0 []) = .next t) ∧ (ready 0 []).readReg 2 = 0 :=
  ⟨⟨_, rfl⟩, by decide⟩
theorem test_wit_frame_output : (∃ t, exec .prn (ready 0 []) = .next t) ∧ ∃ t, exec .halt (ready 0 []) = .next t :=
  ⟨⟨_, rfl⟩, _, rfl⟩
theorem test_wit_step_next : ∃ t, step (ready 0 [0x06]) = .next t := ⟨_, rfl⟩
theorem test_wit_advance : (ready 253 [0x08, 1, 2]).live ∧
    decode (ready 253 [0x08, 1, 2]).fetchBytes = .ok (.add 1 2, []) ∧
    ∃ t, step (ready 253 [0x08, 1, 2]) = .next t ∧ t.state ≠ .faulted := ⟨⟨rfl, rfl⟩, rfl, _, rfl, by decide⟩
theorem test_wit_output : (Command.tick ≠ .reset) ∧ ∃ t r, runCommand .tick (ready 255 [0x06]) = .next (t, r) :=
  ⟨by decide, _, _, rfl⟩

theorem test_wit_table_start : State.reset.state = .idle := by decide
theorem test_wit_table_tick : (ready 0 [0x00]).live ∧ ∃ t, step (ready 0 [0x00]) = .next t := ⟨⟨rfl, rfl⟩, _, rfl⟩
theorem test_wit_table_fetch_fault : (ready 255 [0x08]).live ∧ ∃ t, step (ready 255 [0x08]) = .next t ∧ t.state = .faulted :=
  ⟨⟨rfl, rfl⟩, _, rfl, rfl⟩
theorem test_wit_table_handler_fault :
    (ready 253 [0x09, 1, 2]).live ∧ ∃ t, step (ready 253 [0x09, 1, 2]) = .next t ∧ t.state = .faulted :=
  ⟨⟨rfl, rfl⟩, _, rfl, by decide⟩
theorem test_wit_table_other : Command.stop ≠ .reset ∧ ¬ (Command.stop = .start ∧ (ready 0 []).state = .idle) ∧
    ¬ (Command.stop = .tick ∧ (ready 0 []).live) ∧ ∃ t r, runCommand .stop (ready 0 []) = .next (t, r) :=
  ⟨by decide, by decide, fun h => absurd h.1 (by decide), _, _, rfl⟩
theorem test_wit_terminal : (ready 0 []).halt.ended ∧ ((ready 0 []).enterFault (.invalidInstruction 3)).ended :=
  ⟨.inl rfl, .inr rfl⟩
theorem test_wit_terminal_command : Command.poke 0 1 ≠ .reset ∧
    ∃ t r, runCommand (.poke 0 1) (ready 0 []).halt = .next (t, r) := ⟨by decide, _, _, rfl⟩
theorem test_wit_never_idle : (ready 0 [0x01]).state = .running ∧ Command.reset ∉ [Command.tick, .stop, .start, .tick] ∧
    ∃ t, runCommands [.tick, .stop, .start, .tick] (ready 0 [0x01]) = .next t := ⟨rfl, by decide, _, rfl⟩
theorem test_wit_fault_kept : ((ready 0 []).enterFault (.invalidInstruction 3)).state = .faulted ∧
    Command.reset ∉ [Command.start, .poke 0 1, .tick] ∧
    ∃ t, runCommands [.start, .poke 0 1, .tick] ((ready 0 []).enterFault (.invalidInstruction 3)) = .next t :=
  ⟨rfl, by decide, _, rfl⟩
theorem test_wit_start : State.reset.state = .idle ∧
    ((ready 0 []).stopRun.state = .running ∧ (ready 0 []).stopRun.clkEn = false) ∧
    ((ready 0 []).state = .running ∧ (ready 0 []).clkEn = true) ∧ (ready 0 []).halt.state = .halted ∧
    ((ready 0 []).enterFault (.invalidInstruction 3)).state = .faulted := by decide
theorem test_wit_poke : State.reset.mem.wf ∧ State.reset.state ≠ .running ∧ (255 : Nat) < 256 ∧ (256 : Nat) ≤ 256 := by decide
/-- The addresses 255 and 256 where the clauses of a poke meet, while Running. -/
theorem test_wit_poke_running : (ready 0 []).mem.wf ∧ (ready 0 []).state = .running ∧
    runCommand (.poke 256 1) (ready 0 []) = .refused .pokeWhileRunning ∧
    runCommand (.poke 255 1) (ready 0 []) = .refused .pokeWhileRunning := ⟨by decide, rfl, rfl, rfl⟩
theorem test_wit_command_table : ((ready 0 []).clkEn = true → (ready 0 []).state = .running) ∧ (ready 0 []).live :=
  ⟨fun _ => rfl, rfl, rfl⟩
theorem test_wit_command_table_idle : (State.reset.clkEn = true → State.reset.state = .running) ∧ ¬ State.reset.live :=
  ⟨fun h => absurd h (by decide), fun h => absurd h.1 (by decide)⟩
theorem test_wit_stop_holds : Command.start ∉ [Command.tick, .peek 3] ∧ Command.reset ∉ [Command.tick, .peek 3] ∧
    ∃ t, runCommands [.stop, .tick, .peek 3] (ready 0 [0x01]) = .next t := ⟨by decide, by decide, _, rfl⟩
theorem test_wit_stop_once : ∃ t, runCommand .stop (ready 0 []) = .next (t, .done) := ⟨_, rfl⟩
theorem test_wit_host_reaches : Command.poke 255 1 ≠ .tick ∧ Command.poke 255 1 ≠ .reset ∧
    ∃ t r, runCommand (.poke 255 1) State.reset = .next (t, r) := ⟨by decide, by decide, _, _, rfl⟩
theorem test_wit_boot : ([0x01, 0x00] : List Byte).length ≤ 256 ∧ 256 < (List.replicate 257 (0x01 : Byte)).length :=
  ⟨by decide, by rw [List.length_replicate]; decide⟩
theorem test_wit_pins : (ready 255 [0x06]).live ∧ (ready 255 [0x06]).pc.toNat < 256 ∧
    (ready 255 [0x06]).readByte 255 = 0x06 := ⟨⟨rfl, rfl⟩, by decide, by decide⟩
theorem test_wit_pins_command : Command.reset ≠ .tick ∧ ∃ t r, runCommand .reset (ready 0 []) = .next (t, r) :=
  ⟨by decide, _, _, rfl⟩
theorem test_wit_pins_silent : (∃ t, step (ready 255 [0x01]) = .next t) ∧
    ¬ ((ready 255 [0x01]).live ∧ (ready 255 [0x01]).pc.toNat < 256 ∧ (ready 255 [0x01]).readByte 255 = 0x06) :=
  ⟨⟨_, rfl⟩, fun h => absurd h.2.2 (by decide)⟩
theorem test_wit_acts : PinsIn.acts ⟨false, false, false, false, false, false, 0, 0⟩ = [] ∧
    PinsIn.acts ⟨false, false, false, false, true, false, 5, 7⟩ = [.poke 5 7] ∧
    2 ≤ (PinsIn.acts ⟨true, false, true, false, false, false, 0, 0⟩).length := by decide
theorem test_wit_acts_refused : PinsIn.acts ⟨false, false, false, false, true, false, 5, 7⟩ = [.poke 5 7] ∧
    runCommand (.poke 5 7) (ready 0 []) = .refused .pokeWhileRunning := ⟨by decide, rfl⟩
theorem test_wit_acts_two : 2 ≤ true.toNat + true.toNat + false.toNat + false.toNat + false.toNat + false.toNat := by decide
theorem test_wit_acts_one : ∃ t r, runCommand (.poke 5 7) State.reset = .next (t, r) := ⟨_, _, rfl⟩
theorem test_wit_canonical : Memory.wf [(0, 1), (255, 2)] ∧ Memory.wf (Memory.write (Memory.write [] 255 2) 0 1) ∧
    Memory.write (Memory.write [] 255 2) 0 1 = [(0, 1), (255, 2)] := by decide
theorem test_wit_invariant_running : (ready 253 [0x05, 1, 2]).Inv ∧ ∃ t, step (ready 253 [0x05, 1, 2]) = .next t :=
  ⟨⟨by decide, by decide, by decide, rfl, by decide, by decide⟩, _, rfl⟩
theorem test_wit_invariant_commands : (ready 253 [0x05, 1, 2]).Inv ∧
    ∃ t, runCommands [.stop, .start, .tick, .peek 3] (ready 253 [0x05, 1, 2]) = .next t :=
  ⟨test_wit_invariant_running.1, _, rfl⟩
theorem test_wit_run_ends : (ready 256 []).live ∧ (ready 256 []).pc.toNat ≤ 256 := ⟨⟨rfl, rfl⟩, by decide⟩

end Sys2Proof.Tests
end

