-- ==== Sys2Proof/Proofs/Decoder.lean ====
section
/-! SUPPORT. What a successful decode says of the bytes it read (30_encoding.md R61, R64), and of the state it fetched from. -/

namespace Sys2Proof

theorem decodeF2_ok {op : Byte} {mk : Byte → Instr} {bytes rest : List Byte} {i : Instr}
    (h : decodeF2 op mk bytes = .ok (i, rest)) : ∃ b, i = mk b ∧ bytes = b :: rest := by
  match bytes with
  | [] => cases h
  | b :: _ => cases h; exact ⟨b, rfl, rfl⟩

theorem decodeF3_ok {op : Byte} {mk : Byte → Byte → Instr} {bytes rest : List Byte} {i : Instr}
    (h : decodeF3 op mk bytes = .ok (i, rest)) : ∃ a b, i = mk a b ∧ bytes = a :: b :: rest := by
  match bytes with
  | [] => cases h
  | [_] => cases h
  | a :: b :: _ => cases h; exact ⟨a, b, rfl, rfl⟩

/-- The operands read are those of an instruction of the handler, and the bytes read are its operand bytes. -/
theorem decodeOperands_ok {op : Byte} {k : Handler} {bytes rest : List Byte} {i : Instr}
    (h : decodeOperands op k bytes = .ok (i, rest)) : i.handler = k ∧ bytes = i.operandBytes ++ rest := by
  cases k with
  | halt | init | prn => cases h; exact ⟨rfl, rfl⟩
  | set | save => obtain ⟨b, rfl, rfl⟩ := decodeF2_ok h; exact ⟨rfl, rfl⟩
  | mul | sub | add | div => obtain ⟨a, b, rfl, rfl⟩ := decodeF3_ok h; exact ⟨rfl, rfl⟩

/-- Bytes that decode are the encoding of the instruction, followed by the rest. -/
theorem eq_encode_of_decode_ok {bytes rest : List Byte} {i : Instr} (h : decode bytes = .ok (i, rest)) :
    bytes = encode i ++ rest := by
  cases bytes with
  | nil => cases h
  | cons op tail =>
    simp only [decode] at h
    split at h
    · cases h
    · next e he =>
      obtain ⟨hi, rfl⟩ := decodeOperands_ok h
      rw [(lut_some he).1, ← hi]
      rfl

namespace Machine

theorem State.decode_of_fetch_ok {s : State} {i : Instr} (h : s.fetch = .ok i) :
    ∃ rest, decode s.fetchBytes = .ok (i, rest) := by
  unfold State.fetch at h
  split at h
  · next rest hd => cases h; exact ⟨rest, hd⟩
  · cases h

/-- A fetch that succeeds reads the opcode of its instruction inside memory. -/
theorem State.opcode_of_fetch_ok {s : State} {i : Instr} (h : s.fetch = .ok i) :
    s.pc.toNat < 256 ∧ s.readByte s.pc.toNat = i.opcode := by
  have hp : s.pc.toNat < 256 := by
    by_contra hp
    rw [State.fetch_above (Nat.le_of_not_lt hp)] at h
    cases h
  obtain ⟨rest, hd⟩ := State.decode_of_fetch_ok h
  have hb := eq_encode_of_decode_ok hd
  rw [State.fetchBytes, s.bytesFrom_below hp] at hb
  exact ⟨hp, (List.cons.inj hb).1⟩

end Machine
end Sys2Proof
end

