-- ==== Sys2Proof/Proofs/Handlers.lean ====
section
/-! SUPPORT. What the nine handlers can do, said once: the fault a handler raises, and what it writes when it raises none. -/

namespace Sys2Proof.Machine

/-- The fault of a zero divisor, which DIV alone checks (43_arithmetic.md R131). -/
def divisorRaise (i : Instr) (s : State) : Option Raise :=
  match i with
  | .div _ b => if s.readReg b = 0 then some (.divideByZero Handler.div.opcode) else none
  | _ => none

/-- The fault the handler of `i` raises: an operand byte out of range first, then a zero divisor (60_exceptions.md R155). -/
def execRaise (i : Instr) (s : State) : Option Raise :=
  ((s.missingOperand i.operandBytes.length).map (.outOfBounds (some i.opcode))).or (divisorRaise i s)

/-- The state the handler of `i` leaves when it raises no fault. -/
def execEffect (i : Instr) (s : State) : State :=
  match i with
  | .halt => s.halt
  | .init => (s.setCr 0).advance 1
  | .set r => (s.setCr r).advance 2
  | .save n => (s.writeCur (zext32 n)).advance 2
  | .mul a b => s.combine aluMul a b
  | .prn => (s.emit s.readCur).advance 1
  | .sub a b => s.combine aluSub a b
  | .add a b => s.combine aluAdd a b
  | .div a b => s.combine aluDiv a b

/-- A handler fetches its operand bytes, checks its divisor and then has its effect. -/
theorem exec_eq_withOperands (i : Instr) (s : State) :
    exec i s = .next (withOperands i.opcode i.operandBytes.length s
      ((divisorRaise i s).elim (execEffect i s) s.enterFault)) := by
  cases i with
  | div a b =>
    simp only [exec, execDiv, divisorRaise]
    split <;> rfl
  | _ => rfl

theorem withOperands_elim (op : Byte) (n : Nat) (s next : State) (o : Option Raise) :
    withOperands op n s (o.elim next s.enterFault) =
      (((s.missingOperand n).map (.outOfBounds (some op))).or o).elim next s.enterFault := by
  unfold withOperands
  cases s.missingOperand n <;> rfl

/-- A handler enters the fault it raises, or has its effect. -/
theorem exec_eq (i : Instr) (s : State) :
    exec i s = .next ((execRaise i s).elim (execEffect i s) s.enterFault) := by
  rw [exec_eq_withOperands, withOperands_elim, execRaise]

/-- Everything a handler can do. -/
theorem exec_cases {i : Instr} {s t : State} (h : exec i s = .next t) :
    (∃ f, execRaise i s = some f ∧ t = s.enterFault f) ∨ (execRaise i s = none ∧ t = execEffect i s) := by
  rw [exec_eq] at h
  cases hf : execRaise i s with
  | none => rw [hf] at h; cases h; exact .inr ⟨rfl, rfl⟩
  | some f => rw [hf] at h; cases h; exact .inl ⟨f, rfl, rfl⟩

@[simp] theorem execEffect_pc (i : Instr) (s : State) :
    (execEffect i s).pc = s.pc + BitVec.ofNat 9 i.pcAdvance := by
  cases i with
  | halt => simp [execEffect, Instr.pcAdvance]
  | _ => rfl

/-- Only PRN emits (44_output_and_control.md R136). -/
@[simp] theorem execEffect_out (i : Instr) (s : State) :
    (execEffect i s).out = if i = .prn then s.out ++ [s.readReg s.cr] else s.out := by
  cases i <;> rfl

end Sys2Proof.Machine
end

