-- ==== Sys2Proof/Proofs/State.lean ====
section
/-! The statements about the state: what a tick does to `pc` (10_state.md R29) and what a command does to `out` (R38). -/

namespace Sys2Proof

theorem Instr.pcAdvance_le (i : Instr) : i.pcAdvance ≤ 3 := by
  cases i <;> simp [Instr.pcAdvance]

namespace Machine

/-- From inside memory the advance does not wrap the 9 bits of `pc`. -/
theorem execEffect_pc_toNat {s : State} (h : s.pc.toNat < 256) (i : Instr) :
    (execEffect i s).pc.toNat = s.pc.toNat + i.pcAdvance := by
  have hw := Instr.pcAdvance_le i
  simp only [execEffect_pc, BitVec.toNat_add, BitVec.toNat_ofNat]
  omega

/-- Settles O33: the fetch succeeds only below 256, so the handler's advance is exact unless the handler faults. -/
theorem pcAdvancesByTheWidth : Obligations.PcAdvancesByTheWidth := by
  refine ⟨⟨rfl, rfl, rfl, fun _ _ => ⟨rfl, rfl, rfl, rfl, rfl, rfl⟩⟩, fun s t i rest hlive hd hstep hok => ?_⟩
  have hf := State.fetch_ok hd
  rw [step_fetched (s.ticking_iff.2 hlive) hf] at hstep
  obtain ⟨f, -, rfl⟩ | ⟨-, rfl⟩ := exec_cases hstep
  · exact absurd rfl hok
  · exact execEffect_pc_toNat (State.opcode_of_fetch_ok hf).1 i

/-- A tick leaves `out` alone, or runs PRN and appends the current register. -/
theorem step_out {s t : State} (h : step s = .next t) :
    t.out = s.out ∨ (s.live ∧ s.fetch = .ok .prn ∧ t.out = s.out ++ [s.readReg s.cr]) := by
  obtain ⟨-, rfl⟩ | ⟨-, f, -, rfl⟩ | ⟨hk, i, hf, hx⟩ := step_cases h
  · exact .inl rfl
  · exact .inl rfl
  · obtain ⟨f, -, rfl⟩ | ⟨-, rfl⟩ := exec_cases hx
    · exact .inl rfl
    · by_cases hi : i = .prn
      · subst hi
        exact .inr ⟨s.ticking_iff.1 hk, hf, by simp⟩
      · exact .inl (by simp [hi])

/-- Settles O34, command by command: only a tick can touch `out`, and it does so by PRN, whose opcode is 0x06. -/
theorem outputGrowsOnlyByPrn : Obligations.OutputGrowsOnlyByPrn := by
  refine ⟨rfl, fun s t c r hc h => ?_⟩
  cases c with
  | start => cases h; exact .inl s.startRun_out
  | stop => cases h; exact .inl s.stopRun_out
  | tick =>
    refine (step_out (runCommand_tick h).1).imp_right fun ⟨hlive, hf, hout⟩ => ?_
    obtain ⟨hp, hop⟩ := State.opcode_of_fetch_ok hf
    exact ⟨rfl, hlive, hp, hop, hout⟩
  | poke a v =>
    obtain ⟨-, ⟨-, rfl, -⟩ | ⟨-, rfl, -⟩⟩ := runCommand_poke h
    · exact .inl (s.storeByte_out a v)
    · exact .inl rfl
  | peek a => exact .inl (by rw [(runCommand_peek h).1])
  | reset => exact absurd rfl hc

end Machine
end Sys2Proof
end

