-- ==== Sys2Proof/Proofs/Memory.lean ====
section
/-! The statement about memory: which bytes a tick reads (20_memory.md R46). A fetch depends on the opcode byte and the operand
bytes of its table row, and what comes after the fetch neither reads memory nor changes it. -/

namespace Sys2Proof

/-- A format takes its operands from its own operand bytes, whatever follows them (30_encoding.md R61). -/
theorem decodeOperands_instr_take (op : Byte) (h : Handler) (bytes : List Byte) :
    (decodeOperands op h bytes).map Prod.fst =
      (decodeOperands op h (bytes.take h.format.operands)).map Prod.fst := by
  cases h with
  | halt | init | prn => rfl
  | set | save => cases bytes <;> rfl
  | mul | sub | add | div =>
    match bytes with
    | [] | [_] | _ :: _ :: _ => rfl

theorem Format.operands_le (f : Format) : f.operands ≤ 2 := by
  cases f <;> decide

namespace Machine

theorem State.bytesFrom_take (s : State) {k n : Nat} (h : k ≤ n) (a : Nat) :
    (s.bytesFrom a n).take k = s.bytesFrom a k := by
  induction k generalizing n a with
  | zero => simp [State.bytesFrom]
  | succ k ih =>
    obtain ⟨n, rfl⟩ : ∃ m, n = m + 1 := ⟨n - 1, by omega⟩
    by_cases ha : a < 256
    · rw [s.bytesFrom_below ha, s.bytesFrom_below ha, List.take_succ_cons, ih (by omega)]
    · simp [s.bytesFrom_above (Nat.le_of_not_lt ha)]

/-- A fetch is the instruction decoded from the fetched bytes, or the fault their rejection raises. -/
theorem State.fetch_eq (s : State) :
    s.fetch = ((decode s.fetchBytes).map Prod.fst).mapError (rejectRaise s.pc) := by
  unfold State.fetch
  cases decode s.fetchBytes <;> rfl

/-- With a table row for its opcode, a fetch reads as many operand bytes as that row gives. -/
theorem State.fetch_of_lut {s : State} {e : LutEntry} (hp : s.pc.toNat < 256) (he : lut (s.readByte s.pc.toNat) = some e) :
    s.fetch = ((decodeOperands e.handler.opcode e.handler (s.bytesFrom (s.pc.toNat + 1) e.operands)).map
      Prod.fst).mapError (rejectRaise s.pc) := by
  obtain ⟨hop, -, hn⟩ := lut_some he
  rw [State.fetch_eq, State.fetchBytes, s.bytesFrom_below hp, hop, decode_opcode, decodeOperands_instr_take, ← hn,
    s.bytesFrom_take (hn ▸ e.handler.format.operands_le)]

/-- Two states with the same `pc` fetch the same when their memories agree at the opcode byte and at the operand bytes of its
table row. -/
theorem State.fetch_congr {s t : State} (hpc : t.pc = s.pc)
    (hop : t.readByte s.pc.toNat = s.readByte s.pc.toNat)
    (hargs : ∀ e, lut (s.readByte s.pc.toNat) = some e → ∀ k, k ≤ e.operands →
      t.readByte (s.pc.toNat + k) = s.readByte (s.pc.toNat + k)) :
    t.fetch = s.fetch := by
  rw [← hpc] at hop hargs
  by_cases hp : t.pc.toNat < 256
  · cases he : lut (s.readByte t.pc.toNat) with
    | none => rw [State.fetch_noHandler hp (hop ▸ he), State.fetch_noHandler (hpc ▸ hp) (hpc ▸ he), hop, hpc]
    | some e =>
      have hbytes : t.bytesFrom (t.pc.toNat + 1) e.operands = s.bytesFrom (t.pc.toNat + 1) e.operands :=
        State.bytesFrom_congr fun k hk => by
          have := hargs e he (1 + k) (by omega)
          rwa [← Nat.add_assoc] at this
      rw [State.fetch_of_lut hp (hop ▸ he), State.fetch_of_lut (hpc ▸ hp) (hpc ▸ he), hbytes, hpc]
  · rw [State.fetch_above (Nat.le_of_not_lt hp), State.fetch_above (hpc ▸ Nat.le_of_not_lt hp), hpc]

/-- No handler's fault depends on what memory holds: the operand check is about `pc` alone (20_memory.md R50). -/
theorem execRaise_withMem (i : Instr) (s : State) (m : Memory) : execRaise i { s with mem := m } = execRaise i s := by
  cases i <;> rfl

/-- No handler's effect reads memory or changes it. -/
theorem execEffect_withMem (i : Instr) (s : State) (m : Memory) :
    execEffect i { s with mem := m } = { execEffect i s with mem := m } := by
  cases i <;> rfl

/-- A handler does the same whatever memory holds, and carries memory along. -/
theorem exec_withMem {i : Instr} {s t : State} (h : exec i s = .next t) (m : Memory) :
    exec i { s with mem := m } = .next { t with mem := m } := by
  rw [exec_eq, execRaise_withMem, execEffect_withMem]
  obtain ⟨f, hf, rfl⟩ | ⟨hf, rfl⟩ := exec_cases h <;> rw [hf] <;> rfl

/-- Settles O13: the fetch agrees on either memory, and fault entry and the handlers do not read memory. -/
theorem tickReadsOnlyItsBytes : Obligations.TickReadsOnlyItsBytes := by
  intro s t m hagree hstep
  have hfetch : State.fetch { s with mem := m } = s.fetch :=
    State.fetch_congr rfl (hagree 0 (.inl rfl)) fun e he k hk => hagree k (.inr ⟨e, he, hk⟩)
  obtain ⟨hk, rfl⟩ | ⟨hk, f, hf, rfl⟩ | ⟨hk, i, hf, hx⟩ := step_cases hstep
  · exact step_inert hk
  · exact step_raises hk (hfetch.trans hf)
  · rw [← exec_withMem hx m]
    exact step_fetched hk (hfetch.trans hf)

end Machine
end Sys2Proof
end

