-- ==== Sys2Proof/Proofs/Encoding.lean ====
section
/-! The statements about the opcode map: its rows (30_encoding.md R64), the bytes outside it (R67), and the fault a tick that
fetches one of them enters (40_fetch_decode_execute.md R84). -/

namespace Sys2Proof

/-- Below 0x0A every byte but 0x03 is the opcode of a handler (30_encoding.md R64). -/
theorem exists_handler_opcode {op : Byte} (h3 : op ≠ 0x03) (h : op.toNat < 10) : ∃ k : Handler, op = k.opcode := by
  obtain ⟨k, hk⟩ : ∃ k : Handler, op.toNat = k.opcode.toNat := by
    replace h3 : op.toNat ≠ 3 := fun e => h3 (BitVec.eq_of_toNat_eq e)
    generalize op.toNat = n at h3 h ⊢
    interval_cases n
    exacts [⟨.halt, rfl⟩, ⟨.init, rfl⟩, ⟨.set, rfl⟩, absurd rfl h3, ⟨.save, rfl⟩, ⟨.mul, rfl⟩, ⟨.prn, rfl⟩, ⟨.sub, rfl⟩,
      ⟨.add, rfl⟩, ⟨.div, rfl⟩]
  exact ⟨k, BitVec.eq_of_toNat_eq hk⟩

/-- No handler stands at 0x03 or from 0x0A on. -/
theorem Handler.opcode_legal (k : Handler) : ¬ (k.opcode = 0x03 ∨ 0x0A ≤ k.opcode.toNat) := by
  cases k <;> decide

/-- The opcodes without a handler are 0x03 and those from 0x0A on (R67). -/
theorem lut_eq_none_iff (op : Byte) : lut op = none ↔ op = 0x03 ∨ 0x0A ≤ op.toNat := by
  constructor
  · intro hnone
    by_contra hlegal
    obtain ⟨k, rfl⟩ := exists_handler_opcode (fun h => hlegal (.inl h)) (by omega)
    rw [lut_opcode] at hnone
    cases hnone
  · intro hillegal
    exact Option.eq_none_iff_forall_ne_some.2 fun e he => e.handler.opcode_legal ((lut_some he).1 ▸ hillegal)

/-- One illegal opcode lies below 0x0A and all 246 from there on are illegal (R67). -/
theorem length_filter_lut_none :
    ((List.range 256).filter fun n => lut (BitVec.ofNat 8 n) = none).length = 247 := by
  have hlow : ((List.range 10).filter fun n => lut (BitVec.ofNat 8 n) = none) = [3] := by decide
  have hhigh : ∀ n ∈ (List.range 246).map (10 + ·), decide (lut (BitVec.ofNat 8 n) = none) = true := by
    simp only [List.mem_map, List.mem_range, decide_eq_true_eq, lut_eq_none_iff]
    rintro _ ⟨n, hn, rfl⟩
    right
    simp only [BitVec.toNat_ofNat]
    omega
  rw [show 256 = 10 + 246 from rfl, List.range_add, List.filter_append, hlow, List.filter_eq_self.2 hhigh]
  simp

/-- Settles O2: the rows are the handlers' own, looked up by opcode. -/
theorem lutIsTheOpcodeMap : Obligations.LutIsTheOpcodeMap :=
  ⟨lut_opcode .halt, lut_opcode .init, lut_opcode .set, lut_opcode .save, lut_opcode .mul, lut_opcode .prn,
    lut_opcode .sub, lut_opcode .add, lut_opcode .div, fun h => by cases h <;> rfl,
    fun op => (lut_eq_none_iff op).2, rfl⟩

namespace Machine

/-- Fault entry for an opcode without handler, in the spec's words: the opcode is recorded and no address
(60_exceptions.md R151, R153). -/
theorem State.faultsTo_invalidInstruction (s : State) (op : Byte) :
    s.FaultsTo (s.enterFault (.invalidInstruction op)) .invalidInstruction (some op) none where
  state := rfl
  clkEn := rfl
  kind := rfl
  faultPc := rfl
  opcodeValid := rfl
  opcode := fun _ h => Option.some.inj h
  addrValid := rfl
  addr := nofun
  x := rfl
  cr := rfl
  pc := rfl
  out := rfl
  mem := rfl

/-- Settles O9: an opcode outside the map has no table row, so the fetch raises its fault whatever bytes follow. -/
theorem illegalOpcodeFaults : Obligations.IllegalOpcodeFaults := by
  refine ⟨lut_eq_none_iff, length_filter_lut_none, ?_⟩
  rintro s op hlive hp rfl hillegal
  have hfetch := State.fetch_noHandler hp ((lut_eq_none_iff _).2 hillegal)
  exact ⟨_, step_raises (s.ticking_iff.2 hlive) hfetch, s.faultsTo_invalidInstruction _⟩

end Machine
end Sys2Proof
end

