-- ==== Sys2Proof/Proofs/Tick.lean ====
section
/-! SUPPORT. What one tick does to the run state: when it is inert, what a successful fetch rules out, and the fault entries in
the spec's words (40_fetch_decode_execute.md R80 to R86, 60_exceptions.md R152, R153). -/

namespace Sys2Proof.Machine

/-! Inert ticks -/

theorem step_of_not_live {s : State} (h : ¬ s.live) : step s = .next s :=
  step_inert (Bool.eq_false_iff.2 fun hk => h (s.ticking_iff.1 hk))

theorem State.not_live_of_ended {s : State} (h : s.ended) : ¬ s.live := by
  rintro ⟨hrunning, -⟩
  obtain h | h := h <;> simp [h] at hrunning

/-- No instruction and no fault stops the model (60_exceptions.md R153). -/
theorem step_total (s : State) : ∃ t, step s = .next t := by
  unfold step
  split
  · exact ⟨s, rfl⟩
  · split
    · exact exec_total _ s
    · exact ⟨_, rfl⟩

/-! Fetches -/

theorem State.decode_of_fetch_error {s : State} {f : Raise} (h : s.fetch = .error f) :
    ∃ why, decode s.fetchBytes = .error why ∧ f = rejectRaise s.pc why := by
  unfold State.fetch at h
  split at h
  · cases h
  · next why hd => cases h; exact ⟨why, hd, rfl⟩

theorem State.bytesFrom_length_le (s : State) (a n : Nat) : (s.bytesFrom a n).length ≤ 256 - a := by
  induction n generalizing a with
  | zero => simp [State.bytesFrom]
  | succ n ih =>
    by_cases ha : a < 256
    · have := ih (a + 1)
      rw [s.bytesFrom_below ha, List.length_cons]
      omega
    · simp [s.bytesFrom_above (Nat.le_of_not_lt ha)]

/-- An instruction that was fetched has all its bytes in memory (10_state.md R30). -/
theorem State.fits_of_fetch_ok {s : State} {i : Instr} (h : s.fetch = .ok i) : s.pc.toNat + i.length ≤ 256 := by
  obtain ⟨rest, hd⟩ := State.decode_of_fetch_ok h
  have hbytes : (encode i ++ rest).length ≤ 256 - s.pc.toNat :=
    eq_encode_of_decode_ok hd ▸ s.bytesFrom_length_le s.pc.toNat Config.maxLength
  have hpos := i.length_pos
  rw [List.length_append, encode_length] at hbytes
  omega

/-! Handlers -/

/-- The handler of a fetched instruction finds its operands, so a zero divisor is the one fault left to it
(60_exceptions.md R155). -/
theorem execRaise_of_fetch_ok {s : State} {i : Instr} (h : s.fetch = .ok i) : execRaise i s = divisorRaise i s := by
  have hfits : s.pc.toNat + 1 + i.operandBytes.length ≤ 256 := by
    have := State.fits_of_fetch_ok h
    unfold Instr.length at this
    omega
  rw [execRaise, State.missingOperand, firstOutOfRange_none hfits]
  rfl

theorem divisorRaise_eq_some_iff {i : Instr} {s : State} {f : Raise} :
    divisorRaise i s = some f ↔ (∃ a b, i = .div a b ∧ s.readReg b = 0) ∧ f = .divideByZero 0x09 := by
  cases i with
  | div a b => by_cases hb : s.readReg b = 0 <;> simp [divisorRaise, hb, Handler.opcode, eq_comm]
  | _ => simp [divisorRaise]

theorem divisorRaise_eq_none_iff {i : Instr} {s : State} :
    divisorRaise i s = none ↔ ¬ ∃ a b, i = .div a b ∧ s.readReg b = 0 := by
  rw [Option.eq_none_iff_forall_ne_some]
  exact ⟨fun h hzero => h _ (divisorRaise_eq_some_iff.2 ⟨hzero, rfl⟩), fun h f hf => h (divisorRaise_eq_some_iff.1 hf).1⟩

/-- Only HALT's effect moves the run state (44_output_and_control.md R141). -/
@[simp] theorem execEffect_state (i : Instr) (s : State) :
    (execEffect i s).state = if i = .halt then .halted else s.state := by
  cases i <;> rfl

@[simp] theorem execEffect_clkEn (i : Instr) (s : State) :
    (execEffect i s).clkEn = if i = .halt then false else s.clkEn := by
  cases i <;> rfl

/-- No tick leads to Idle (40_fetch_decode_execute.md R88). -/
theorem step_state_ne_idle {s t : State} (hs : s.state ≠ .idle) (h : step s = .next t) : t.state ≠ .idle := by
  obtain ⟨-, rfl⟩ | ⟨-, f, -, rfl⟩ | ⟨-, i, -, hx⟩ := step_cases h
  · exact hs
  · simp
  · obtain ⟨f, -, rfl⟩ | ⟨-, rfl⟩ := exec_cases hx
    · simp
    · rw [execEffect_state]
      split
      · simp
      · exact hs

/-! Fault entry -/

/-- Fault entry for a read out of range, in the spec's words: the address is recorded, and the opcode where it was read
(60_exceptions.md R152, R153). -/
theorem State.faultsTo_outOfBounds (s : State) (op : Option Byte) (a : Nat) :
    s.FaultsTo (s.enterFault (.outOfBounds op a)) .outOfBounds op (some (BitVec.ofNat 9 a)) where
  state := rfl
  clkEn := rfl
  kind := by cases op <;> rfl
  faultPc := by simp
  opcodeValid := by cases op <;> rfl
  opcode := by rintro b rfl; rfl
  addrValid := by cases op <;> rfl
  addr := by cases op <;> exact fun _ h => Option.some.inj h
  x := rfl
  cr := rfl
  pc := rfl
  out := rfl
  mem := rfl

end Sys2Proof.Machine
end

