-- ==== Sys2Proof/Proofs/Commands.lean ====
section
/-! SUPPORT. What the host's commands do to the run state, one command at a time and in sequence
(40_fetch_decode_execute.md R87, R91 to R95). -/

namespace Sys2Proof.Machine

/-! Start and stop -/

theorem State.startRun_of_ended {s : State} (h : s.ended) : s.startRun = s :=
  h.elim s.startRun_halted s.startRun_faulted

/-- `start` moves the run state out of Idle alone (R92). -/
theorem State.startRun_state {s : State} (h : s.state ≠ .idle) : s.startRun.state = s.state := by
  cases hs : s.state with
  | idle => exact absurd hs h
  | running => rw [s.startRun_running hs, hs]
  | halted => rw [s.startRun_halted hs, hs]
  | faulted => rw [s.startRun_faulted hs, hs]

/-- Writing back the clock enable changes nothing. -/
theorem State.setClkEn_self {s : State} {b : Bool} (h : s.clkEn = b) : { s with clkEn := b } = s := by
  rw [← h]

/-! Single commands -/

theorem runCommand_tick_of_step {s t : State} (h : step s = .next t) : runCommand .tick s = .next (t, .done) := by
  simp [runCommand, tickCommand, h]

theorem runCommand_tick_of_not_live {s : State} (h : ¬ s.live) : runCommand .tick s = .next (s, .done) :=
  runCommand_tick_of_step (step_of_not_live h)

theorem runCommand_poke_running {s : State} (h : s.state = .running) (a : Nat) (v : Byte) :
    runCommand (.poke a v) s = .refused .pokeWhileRunning := by
  simp [runCommand, pokeCommand, h]

theorem runCommand_poke_below {s : State} (h : s.state ≠ .running) {a : Nat} (ha : a < 256) (v : Byte) :
    runCommand (.poke a v) s = .next (s.storeByte a v, .done) := by
  simp [runCommand, pokeCommand, h, ha]

theorem runCommand_poke_above {s : State} (h : s.state ≠ .running) {a : Nat} (ha : 256 ≤ a) (v : Byte) :
    runCommand (.poke a v) s = .next (s, .outOfBoundsError) := by
  simp [runCommand, pokeCommand, h, Nat.not_lt.2 ha]

/-- A `poke` is admitted exactly outside Running (R91). -/
theorem runCommand_poke_admitted_iff (s : State) (a : Nat) (v : Byte) :
    (∃ t r, runCommand (.poke a v) s = .next (t, r)) ↔ s.state ≠ .running := by
  constructor
  · rintro ⟨t, r, h⟩
    exact (runCommand_poke h).1
  · intro hs
    obtain ha | ha := Nat.lt_or_ge a 256
    · exact ⟨_, _, runCommand_poke_below hs ha v⟩
    · exact ⟨_, _, runCommand_poke_above hs ha v⟩

theorem runCommand_peek_below (s : State) {a : Nat} (ha : a < 256) :
    runCommand (.peek a) s = .next (s, .byte (s.readByte a)) := by
  simp [runCommand, peekCommand, ha]

theorem runCommand_peek_above (s : State) {a : Nat} (ha : 256 ≤ a) :
    runCommand (.peek a) s = .next (s, .outOfBoundsError) := by
  simp [runCommand, peekCommand, Nat.not_lt.2 ha]

/-- A `peek` is admitted in every state (R91). -/
theorem runCommand_peek_admitted (s : State) (a : Nat) : ∃ r, runCommand (.peek a) s = .next (s, r) := by
  obtain ha | ha := Nat.lt_or_ge a 256
  · exact ⟨_, runCommand_peek_below s ha⟩
  · exact ⟨_, runCommand_peek_above s ha⟩

/-- A command reaches memory and the clock enable alone, unless it is `start`, reset or an executing tick. -/
theorem runCommand_frame {s t : State} {c : Command} {r : Reply} (hstart : c ≠ .start) (hreset : c ≠ .reset)
    (htick : ¬ (c = .tick ∧ s.live)) (h : runCommand c s = .next (t, r)) :
    t = { s with mem := t.mem, clkEn := t.clkEn } := by
  cases c with
  | start => exact absurd rfl hstart
  | stop => cases h; rfl
  | tick =>
    have hlive : ¬ s.live := fun hs => htick ⟨rfl, hs⟩
    rw [runCommand_tick_of_not_live hlive] at h
    cases h; rfl
  | poke a v => obtain ⟨-, ⟨-, rfl, -⟩ | ⟨-, rfl, -⟩⟩ := runCommand_poke h <;> rfl
  | peek a => rw [(runCommand_peek h).1]
  | reset => exact absurd rfl hreset

/-- No command but `start` enables the clock (R92, R93). -/
theorem runCommand_clkEn_false {s t : State} {c : Command} {r : Reply} (hstart : c ≠ .start) (hs : s.clkEn = false)
    (h : runCommand c s = .next (t, r)) : t.clkEn = false := by
  cases c with
  | start => exact absurd rfl hstart
  | stop | reset => cases h; rfl
  | tick =>
    have hlive : ¬ s.live := fun hl => by simp [hl.2] at hs
    rw [runCommand_tick_of_not_live hlive] at h
    cases h; exact hs
  | poke a v => obtain ⟨-, ⟨-, rfl, -⟩ | ⟨-, rfl, -⟩⟩ := runCommand_poke h <;> exact hs
  | peek a => rw [(runCommand_peek h).1]; exact hs

/-- The run state moves by `start` from Idle, by an executing tick and by reset alone (R88). -/
theorem runCommand_state {s t : State} {c : Command} {r : Reply} (hreset : c ≠ .reset)
    (hstart : ¬ (c = .start ∧ s.state = .idle)) (htick : ¬ (c = .tick ∧ s.live))
    (h : runCommand c s = .next (t, r)) : t.state = s.state := by
  by_cases hc : c = .start
  · subst hc
    cases h
    exact State.startRun_state fun hs => hstart ⟨rfl, hs⟩
  · rw [runCommand_frame hc hreset htick h]

/-- Only reset leads back to Idle (R90). -/
theorem runCommand_state_ne_idle {s t : State} {c : Command} {r : Reply} (hreset : c ≠ .reset) (hs : s.state ≠ .idle)
    (h : runCommand c s = .next (t, r)) : t.state ≠ .idle := by
  by_cases hc : c = .tick
  · subst hc
    exact step_state_ne_idle hs (runCommand_tick h).1
  · rwa [runCommand_state hreset (fun hi => hs hi.2) (fun hi => hc hi.1) h]

/-- From a disabled clock on, commands other than `start` and reset reach memory alone (R93). -/
theorem runCommand_frame_of_clkEn_false {s t : State} {c : Command} {r : Reply} (hstart : c ≠ .start) (hreset : c ≠ .reset)
    (hs : s.clkEn = false) (h : runCommand c s = .next (t, r)) : t = { s with mem := t.mem } := by
  have hframe := runCommand_frame hstart hreset (fun hi => by simp [hi.2.2] at hs) h
  rwa [runCommand_clkEn_false hstart hs h, ← hs] at hframe

/-! Sequences of commands -/

/-- What every command of a sequence keeps, the sequence keeps. -/
theorem runCommands_induction {P : State → Prop} {cs : List Command} {s t : State}
    (hkeep : ∀ c ∈ cs, ∀ u v r, P u → runCommand c u = .next (v, r) → P v) (hs : P s)
    (h : runCommands cs s = .next t) : P t := by
  induction cs generalizing s with
  | nil => cases h; exact hs
  | cons c cs ih =>
    simp only [runCommands] at h
    split at h
    · next u r hu =>
      exact ih (fun d hd => hkeep d (List.mem_cons_of_mem c hd)) (hkeep c List.mem_cons_self s u r hs hu) h
    · cases h
    · cases h

/-- With the clock disabled, a sequence without `start` and reset reaches memory alone (R93). -/
theorem runCommands_frame_of_clkEn_false {s t : State} {cs : List Command} (hstart : .start ∉ cs) (hreset : .reset ∉ cs)
    (hs : s.clkEn = false) (h : runCommands cs s = .next t) : ∃ m : Memory, t = { s with mem := m } := by
  refine runCommands_induction (P := fun u => ∃ m : Memory, u = { s with mem := m }) (fun c hc u v r hu hv => ?_)
    ⟨s.mem, rfl⟩ h
  obtain ⟨m, rfl⟩ := hu
  exact ⟨v.mem, runCommand_frame_of_clkEn_false (s := { s with mem := m }) (ne_of_mem_of_not_mem hc hstart)
    (ne_of_mem_of_not_mem hc hreset) hs hv⟩

end Sys2Proof.Machine
end

