-- ==== Sys2Proof/Proofs/FetchDecodeExecute.lean ====
section
/-! The statements about the tick and the run state, and about the host's commands between ticks
(40_fetch_decode_execute.md). -/

namespace Sys2Proof.Machine

/-! The tick -/

/-- Settles O7: the negation of `State.live` is the case in which a step is inert. -/
theorem tickInertUnlessRunning : Obligations.TickInertUnlessRunning :=
  fun _ h => ⟨step_of_not_live h, runCommand_tick_of_not_live h⟩

/-- Settles O8: at 256 the opcode fetch raises the fault; below 256 only an advance moves `pc`, and HALT, whose advance is not
its length, does not reach 256. -/
theorem fetchPastTopFaults : Obligations.FetchPastTopFaults := by
  refine ⟨fun s hlive hpc => ?_, fun s t hp hstep htop => ?_⟩
  · have hfetch : s.fetch = .error (.outOfBounds none 256) := by simp [State.fetch_above, hpc]
    exact ⟨_, step_raises (s.ticking_iff.2 hlive) hfetch, s.faultsTo_outOfBounds none 256, by simp [hpc]⟩
  · have hmoved : t.pc ≠ s.pc := fun e => by simp [← e, htop] at hp
    obtain ⟨-, rfl⟩ | ⟨-, f, -, rfl⟩ | ⟨-, i, hf, hx⟩ := step_cases hstep
    · exact absurd rfl hmoved
    · exact absurd rfl hmoved
    · obtain ⟨f, -, rfl⟩ | ⟨-, rfl⟩ := exec_cases hx
      · exact absurd rfl hmoved
      · obtain ⟨rest, hd⟩ := State.decode_of_fetch_ok hf
        have hadvance := execEffect_pc_toNat hp i
        have hhalt : i ≠ .halt := fun e => hmoved (by simp [e, Instr.pcAdvance])
        rw [htop, Instr.pcAdvance_eq, if_neg hhalt] at hadvance
        exact ⟨i, rest, hd, hadvance.symm⟩

/-! The run state -/

/-- The handler of a fetched instruction other than HALT faults on a DIV by zero, and leaves the core Running otherwise
(R88). -/
theorem exec_runState {s t : State} {i : Instr} (hlive : s.live) (hf : s.fetch = .ok i) (hi : i ≠ .halt)
    (hx : exec i s = .next t) :
    (t.state = .faulted ∧ t.clkEn = false ∧ ∃ a b, i = .div a b ∧ s.readReg b = 0 ∧
      t = s.enterFault (.divideByZero 0x09)) ∨
    (t.state = .running ∧ t.clkEn = true ∧ ¬ ∃ a b, i = .div a b ∧ s.readReg b = 0) := by
  have hraise := execRaise_of_fetch_ok hf
  obtain ⟨f, hfault, rfl⟩ | ⟨hnone, rfl⟩ := exec_cases hx
  · obtain ⟨⟨a, b, hdiv, hzero⟩, rfl⟩ := divisorRaise_eq_some_iff.1 (hraise ▸ hfault)
    exact .inl ⟨rfl, rfl, a, b, hdiv, hzero, rfl⟩
  · exact .inr ⟨by simp [hi, hlive.1], by simp [hi, hlive.2], divisorRaise_eq_none_iff.1 (hraise ▸ hnone)⟩

/-- Settles O35: an executing tick is a failed fetch, HALT or another handler, and every other event but `start` from Idle
reaches no run state. -/
theorem runStateTable : Obligations.RunStateTable := by
  refine ⟨fun s hs => by rw [runCommand_start, s.startRun_idle hs], fun s t hlive hstep => ?_,
    fun _ _ _ _ => runCommand_state⟩
  obtain ⟨hk, -⟩ | ⟨-, f, hf, rfl⟩ | ⟨-, i, hf, hx⟩ := step_cases hstep
  · rw [s.ticking_iff.2 hlive] at hk
    cases hk
  · obtain ⟨why, hd, rfl⟩ := State.decode_of_fetch_error hf
    exact .inr (.inl ⟨why, hd, rfl⟩)
  · obtain ⟨rest, hd⟩ := State.decode_of_fetch_ok hf
    by_cases hi : i = .halt
    · subst hi
      cases hx
      exact .inl ⟨⟨rest, hd⟩, rfl⟩
    · exact .inr (.inr ⟨i, rest, hi, hd, hx, exec_runState hlive hf hi hx⟩)

/-- Settles O36: an ended core is neither Idle nor live, so neither `start` nor a tick moves it. -/
theorem haltedAndFaultedAreTerminal : Obligations.HaltedAndFaultedAreTerminal := by
  intro s hended
  have hlive := State.not_live_of_ended hended
  have hidle : s.state ≠ .idle := fun hs => by obtain h | h := hended <;> simp [hs] at h
  refine ⟨step_of_not_live hlive, by rw [runCommand_start, State.startRun_of_ended hended], fun c t r hc h => ?_,
    s.resetCore, rfl, rfl⟩
  exact runCommand_state hc (fun hi => hidle hi.2) (fun hi => hlive hi.2) h

/-- Settles O37: each command but reset keeps the core out of Idle. -/
theorem neverBackToIdle : Obligations.NeverBackToIdle := by
  intro s t cs hrunning hreset h
  refine runCommands_induction (P := fun u => u.state ≠ .idle) (fun c hc u v r hu hv => ?_) (by simp [hrunning]) h
  exact runCommand_state_ne_idle (ne_of_mem_of_not_mem hc hreset) hu hv

/-! The host's commands -/

/-- Settles O39: one law of `startRun` per run state. -/
theorem startCommand : Obligations.StartCommand := by
  intro s
  refine ⟨fun hs => ?_, fun hs _ => ?_, fun hs hclk => ?_, fun hs => ?_, fun hs => ?_⟩ <;> rw [runCommand_start]
  · rw [s.startRun_idle hs]
  · rw [s.startRun_running hs]
  · rw [s.startRun_running hs, State.setClkEn_self hclk]
  · rw [s.startRun_halted hs]
  · rw [s.startRun_faulted hs]

/-- Settles O40: after `stop` every command that may follow reaches memory alone, so the rest is as `stop` left it. -/
theorem stopHoldsUntilStart : Obligations.StopHoldsUntilStart := by
  refine ⟨fun _ => rfl, fun s t h => by cases h; rfl, fun s t cs hstart hreset h => ?_, step_total⟩
  obtain ⟨m, rfl⟩ := runCommands_frame_of_clkEn_false (s := s.stopRun) hstart hreset rfl h
  exact ⟨rfl, runCommand_tick_of_not_live (by simp [State.live]), rfl, rfl, rfl, rfl, rfl, rfl⟩

/-- Settles O42: the round trip is a read after a write to the same cell. -/
theorem peekCommand_spec : Obligations.PeekCommand := by
  refine ⟨fun s a => runCommand_peek_below s, fun s a => runCommand_peek_above s, fun s a v hwf hs ha => ?_⟩
  refine ⟨_, runCommand_poke_below hs ha v, ?_⟩
  rw [runCommand_peek_below _ ha, State.readByte_storeByte hwf, if_pos rfl]

/-- Settles O43: in the states of the table a core that is not live has its clock disabled, so `stop` changes nothing there. -/
theorem commandTable : Obligations.CommandTable := by
  intro s hclk
  have hstop (hlive : ¬ s.live) : runCommand .stop s = .next (s, .done) := by
    have hoff : s.clkEn = false := Bool.eq_false_iff.2 fun h => hlive ⟨hclk h, h⟩
    rw [runCommand_stop, State.stopRun, State.setClkEn_self hoff]
  have htick : ∃ t, step s = .next t ∧ runCommand .tick s = .next (t, .done) :=
    (step_total s).imp fun _ h => ⟨h, runCommand_tick_of_step h⟩
  refine ⟨?_, fun _ => rfl, hstop, fun _ => htick, runCommand_tick_of_not_live, runCommand_poke_admitted_iff s,
    fun a v hs => runCommand_poke_running hs a v, runCommand_peek_admitted s⟩
  cases hs : s.state <;> simp [State.startRun, hs]

end Sys2Proof.Machine
end

