-- ==== Sys2Proof/Proofs/RegisterPointer.lean ====
section
/-! The statements about INIT and SET (41_register_pointer.md), with what they need of any handler whose operand bytes lie in
memory or reach past its top, and of the tick past the top. -/

namespace Sys2Proof.Machine

/-- An executing tick at 256 fetches no opcode (40_fetch_decode_execute.md R82). -/
theorem step_pastTop {s : State} (hlive : s.live) (hpc : s.pc = 256) :
    step s = .next (s.enterFault (.outOfBounds none 256)) := by
  have hfetch : s.fetch = .error (.outOfBounds none 256) := by simp [State.fetch_above, hpc]
  exact step_raises (s.ticking_iff.2 hlive) hfetch

/-- With all its bytes in memory, only a zero divisor keeps an instruction from its effect (60_exceptions.md R155). -/
theorem exec_of_fits {i : Instr} {s : State} (h : s.pc.toNat + i.length ≤ 256) :
    exec i s = .next ((divisorRaise i s).elim (execEffect i s) s.enterFault) := by
  rw [Instr.length, ← Nat.add_assoc] at h
  rw [exec_eq_withOperands, withOperands_fits h]

/-- With an operand byte past the top of memory, an instruction does nothing but enter its fault at 256 (R152, R153). -/
theorem exec_of_not_fits {i : Instr} {s : State} (hp : s.pc.toNat < 256) (h : 256 < s.pc.toNat + i.length) :
    ∃ t, exec i s = .next t ∧ s.FaultsTo t .outOfBounds (some i.opcode) (some 256) := by
  rw [Instr.length, ← Nat.add_assoc] at h
  rw [exec_eq_withOperands, withOperands_missing hp h]
  exact ⟨_, rfl, s.faultsTo_outOfBounds (some i.opcode) 256⟩

theorem execEffect_init (s : State) : execEffect .init s = { s with cr := 0, pc := s.pc + 1 } := rfl

theorem execEffect_set (i : Byte) (s : State) : execEffect (.set i) s = { s with cr := i, pc := s.pc + 2 } := rfl

/-- INIT has no operand byte, so it completes in every state (R100). -/
theorem exec_init (s : State) : exec .init s = .next (execEffect .init s) := rfl

/-- Settles O14: INIT leaves the run state alone, so from 255 the next tick executes at 256. -/
theorem initZeroesThePointer : Obligations.InitZeroesThePointer := by
  refine ⟨decode_opcode .init, fun s => by rw [exec_init, execEffect_init], fun s t hlive hpc h => ?_⟩
  rw [exec_init] at h
  cases h
  have hlive' : (execEffect .init s).live := by simpa [State.live] using hlive
  have hpc' : (execEffect .init s).pc = 256 := by simp [Instr.pcAdvance, hpc]
  exact ⟨hpc', step_pastTop hlive' hpc'⟩

/-- Settles O15: SET has two bytes and no divisor, so it has its effect where both lie in memory and faults at 255. -/
theorem setWritesThePointer : Obligations.SetWritesThePointer := by
  refine ⟨fun i rest => decode_opcode .set (i :: rest), fun s i h => ?_, fun s i hpc => ?_⟩
  · have hfits : s.pc.toNat + (Instr.set i).length ≤ 256 := h
    rw [exec_of_fits hfits, ← execEffect_set]
    rfl
  · have hp : s.pc.toNat = 255 := by rw [hpc]; rfl
    have hmissing : 256 < s.pc.toNat + (Instr.set i).length := by simp [hp, Instr.length, Instr.operandBytes]
    exact exec_of_not_fits (by omega) hmissing

end Sys2Proof.Machine
end

