-- ==== Sys2Proof/Proofs/DataMovement.lean ====
section
/-! The statement about SAVE (42_data_movement.md). -/

namespace Sys2Proof.Machine

/-- Zero extension keeps the number a byte stands for (00_scope.md R13, decision D23). -/
theorem zext32_eq_ofNat (b : Byte) : zext32 b = BitVec.ofNat 32 b.toNat := (BitVec.ofNat_toNat 32 b).symm

theorem execEffect_save (n : Byte) (s : State) :
    execEffect (.save n) s =
      { s with x := s.x.set s.cr.toNat (BitVec.ofNat 32 n.toNat) s.cr.isLt, pc := s.pc + 2 } := by
  rw [← zext32_eq_ofNat]
  rfl

/-- Settles O16: SAVE has two bytes and no divisor, so it has its effect where both lie in memory and faults at 255. -/
theorem saveWritesTheLiteral : Obligations.SaveWritesTheLiteral := by
  refine ⟨fun n rest => decode_opcode .save (n :: rest), fun s n h => ?_, fun s n hpc => ?_⟩
  · have hfits : s.pc.toNat + (Instr.save n).length ≤ 256 := h
    rw [exec_of_fits hfits, ← execEffect_save]
    rfl
  · have hp : s.pc.toNat = 255 := by rw [hpc]; rfl
    have hmissing : 256 < s.pc.toNat + (Instr.save n).length := by simp [hp, Instr.length, Instr.operandBytes]
    exact exec_of_not_fits (by omega) hmissing

end Sys2Proof.Machine
end

