-- ==== Sys2Proof/Proofs/Arithmetic.lean ====
section
/-! The statements about MUL, SUB, ADD and DIV (43_arithmetic.md): what the four share at `pc` (R115), the arithmetic of their
results on 32-bit patterns (R116), and the fault of a zero divisor (R131). -/

namespace Sys2Proof.Machine

/-! The results: each exact integer result, narrowed, is the bit-vector operation, under the unsigned reading of the operands
and the signed one alike. -/

theorem bits32_toNat (u : Word) : bits32 u.toNat = u := by
  rw [bits32, BitVec.ofInt_natCast, BitVec.ofNat_toNat, BitVec.setWidth_eq]

theorem bits32_toInt (u : Word) : bits32 u.toInt = u := BitVec.ofInt_toInt

theorem bits32_add (m n : Int) : bits32 (m + n) = bits32 m + bits32 n := BitVec.ofInt_add m n

theorem bits32_sub (m n : Int) : bits32 (m - n) = bits32 m - bits32 n := by
  rw [Int.sub_eq_add_neg, bits32_add, BitVec.sub_eq_add_neg, bits32, bits32, bits32, BitVec.ofInt_neg]

theorem bits32_mul (m n : Int) : bits32 (m * n) = bits32 m * bits32 n := BitVec.ofInt_mul m n

theorem aluAdd_eq (u v : Word) : aluAdd u v = u + v := by
  rw [aluAdd, bits32_add, bits32_toNat, bits32_toNat]

theorem aluSub_eq (u v : Word) : aluSub u v = u - v := by
  rw [aluSub, bits32_sub, bits32_toNat, bits32_toNat]

theorem aluMul_eq (u v : Word) : aluMul u v = u * v := by
  rw [aluMul, bits32_mul, bits32_toNat, bits32_toNat]

/-- The same sum from the signed reading (R116, decision D1). -/
theorem aluAdd_eq_signed (u v : Word) : aluAdd u v = bits32 (u.toInt + v.toInt) := by
  rw [aluAdd_eq, bits32_add, bits32_toInt, bits32_toInt]

theorem aluSub_eq_signed (u v : Word) : aluSub u v = bits32 (u.toInt - v.toInt) := by
  rw [aluSub_eq, bits32_sub, bits32_toInt, bits32_toInt]

theorem aluMul_eq_signed (u v : Word) : aluMul u v = bits32 (u.toInt * v.toInt) := by
  rw [aluMul_eq, bits32_mul, bits32_toInt, bits32_toInt]

theorem aluAdd_toNat (u v : Word) : (aluAdd u v).toNat = (u.toNat + v.toNat) % 2 ^ 32 := by
  rw [aluAdd_eq, BitVec.toNat_add]

/-- A borrow wraps: the difference is taken from 2^32 more (R122, decision D2). -/
theorem aluSub_toNat (u v : Word) : (aluSub u v).toNat = (2 ^ 32 + u.toNat - v.toNat) % 2 ^ 32 := by
  rw [aluSub_eq, BitVec.toNat_sub, Nat.sub_add_comm v.isLt.le]

theorem aluMul_toNat (u v : Word) : (aluMul u v).toNat = u.toNat * v.toNat % 2 ^ 32 := by
  rw [aluMul_eq, BitVec.toNat_mul]

/-- A word whose number is `n` modulo 2^32 is the pattern of `n`. -/
theorem eq_ofNat_of_toNat_eq_mod {u : Word} {n : Nat} (h : u.toNat = n % 2 ^ 32) : u = BitVec.ofNat 32 n :=
  BitVec.eq_of_toNat_eq (by rw [h, BitVec.toNat_ofNat])

/-! What the four share: three bytes, so they complete from `pc` 253 down and fault at 254 and 255 (R115). -/

theorem exec_of_length_three {i : Instr} {s : State} (hlen : i.length = 3) (hp : s.pc.toNat ≤ 253)
    (hdivisor : divisorRaise i s = none) : exec i s = .next (execEffect i s) := by
  rw [exec_of_fits (by omega), hdivisor]
  rfl

theorem exec_nearTop_of_length_three {i : Instr} {s : State} (hlen : i.length = 3) (hpc : s.pc = 254 ∨ s.pc = 255) :
    ∃ t, exec i s = .next t ∧ s.FaultsTo t .outOfBounds (some i.opcode) (some 256) := by
  have hp : s.pc.toNat = 254 ∨ s.pc.toNat = 255 := hpc.imp (fun h => by rw [h]; rfl) (fun h => by rw [h]; rfl)
  exact exec_of_not_fits (by omega) (by omega)

theorem State.combine_eq (s : State) (f : Word → Word → Word) (a b : Byte) :
    s.combine f a b = { s with
      x := s.x.set s.cr.toNat (f (s.readReg a) (s.readReg b)) s.cr.isLt, pc := s.pc + 3 } := rfl

theorem State.readReg_combine_cr (s : State) (f : Word → Word → Word) (a b : Byte) :
    (s.combine f a b).readReg s.cr = f (s.readReg a) (s.readReg b) := by
  rw [State.combine, State.readReg_advance, State.readReg_writeCur, if_pos rfl]

@[simp] theorem execEffect_fault (i : Instr) (s : State) : (execEffect i s).fault = s.fault := by
  cases i <;> rfl

/-- No effect but HALT's reaches the control state: no result sets a flag or traps (10_state.md R34). -/
theorem execEffect_sameControl {i : Instr} (hi : i ≠ .halt) (s : State) : s.sameControl (execEffect i s) := by
  simp [State.sameControl, hi]

/-! The zero divisor -/

theorem divisorRaise_div_of_ne_zero {s : State} {b : Byte} (hb : s.readReg b ≠ 0) (a : Byte) :
    divisorRaise (.div a b) s = none := if_neg hb

theorem divisorRaise_div_of_eq_zero {s : State} {b : Byte} (hb : s.readReg b = 0) (a : Byte) :
    divisorRaise (.div a b) s = some (.divideByZero 0x09) := if_pos hb

/-- Fault entry for a zero divisor, in the spec's words: the opcode is recorded and no address (60_exceptions.md R153,
R154). -/
theorem State.faultsTo_divideByZero (s : State) (op : Byte) :
    s.FaultsTo (s.enterFault (.divideByZero op)) .divideByZero (some op) none where
  state := rfl
  clkEn := rfl
  kind := rfl
  faultPc := rfl
  opcodeValid := rfl
  opcode := fun _ h => Option.some.inj h
  addrValid := rfl
  addr := nofun
  x := rfl
  cr := rfl
  pc := rfl
  out := rfl
  mem := rfl

/-! The four instructions -/

/-- Settles O17: MUL combines by the product, and its three bytes reach past the top at 254 and 255. -/
theorem mulWritesTheProduct : Obligations.MulWritesTheProduct := by
  refine ⟨fun a b rest => decode_opcode .mul (a :: b :: rest), fun s a b hp => ?_,
    fun s a b => exec_nearTop_of_length_three (i := .mul a b) rfl⟩
  rw [exec_of_length_three rfl hp rfl, execEffect, State.combine_eq, eq_ofNat_of_toNat_eq_mod (aluMul_toNat _ _)]

/-- Settles O18: SUB combines by the difference, and its three bytes reach past the top at 254 and 255. -/
theorem subWritesTheDifference : Obligations.SubWritesTheDifference := by
  refine ⟨fun a b rest => decode_opcode .sub (a :: b :: rest), fun s a b hp => ?_,
    fun s a b => exec_nearTop_of_length_three (i := .sub a b) rfl⟩
  rw [exec_of_length_three rfl hp rfl, execEffect, State.combine_eq, eq_ofNat_of_toNat_eq_mod (aluSub_toNat _ _)]

/-- Settles O19: ADD combines by the sum, and its three bytes reach past the top at 254 and 255. -/
theorem addWritesTheSum : Obligations.AddWritesTheSum := by
  refine ⟨fun a b rest => decode_opcode .add (a :: b :: rest), fun s a b hp => ?_,
    fun s a b => exec_nearTop_of_length_three (i := .add a b) rfl⟩
  rw [exec_of_length_three rfl hp rfl, execEffect, State.combine_eq, eq_ofNat_of_toNat_eq_mod (aluAdd_toNat _ _)]

/-- Settles O20: the operand check comes before the divisor's, so DIV faults at 254 and 255 as the others do, and from 253 down
its divisor alone decides. -/
theorem divWritesTheQuotient : Obligations.DivWritesTheQuotient := by
  refine ⟨fun a b rest => decode_opcode .div (a :: b :: rest), fun s a b hp hb => ?_, fun s a b hp hb => ?_,
    fun s a b => exec_nearTop_of_length_three (i := .div a b) rfl⟩
  · rw [exec_of_length_three rfl hp (divisorRaise_div_of_ne_zero hb a), execEffect, State.combine_eq, aluDiv, bits32]
  · have hfits : s.pc.toNat + (Instr.div a b).length ≤ 256 := Nat.add_le_add_right hp 3
    rw [exec_of_fits hfits, divisorRaise_div_of_eq_zero hb]
    exact ⟨_, rfl, s.faultsTo_divideByZero 0x09⟩

/-- The quotient 2^31 has the pattern of the dividend (R133, decision D3). -/
theorem aluDiv_overflow : aluDiv 0x80000000 0xFFFFFFFF = 0x80000000 := by decide

/-- Settles O25: the divisor -1 is not 0, so DIV has its effect, which leaves the control state alone. -/
theorem divOverflowWraps : Obligations.DivOverflowWraps := by
  refine ⟨aluDiv_overflow, fun s a b hp ha hb => ?_⟩
  have hne : s.readReg b ≠ 0 := by rw [hb]; decide
  refine ⟨_, exec_of_length_three rfl hp (divisorRaise_div_of_ne_zero hne a), ?_, execEffect_sameControl (by simp) s⟩
  rw [execEffect, State.readReg_combine_cr, ha, hb, aluDiv_overflow]

/-- Settles O26: each of the four, its divisor not 0, raises nothing and so has its effect, whatever its operands. -/
theorem arithmeticIsModular : Obligations.ArithmeticIsModular := by
  refine ⟨fun u v => ⟨aluAdd_toNat u v, aluSub_toNat u v, aluMul_toNat u v, aluAdd_eq_signed u v, aluSub_eq_signed u v,
    aluMul_eq_signed u v, rfl⟩, fun s a b i hp hi => ?_⟩
  have harith : i.length = 3 ∧ i ≠ .halt ∧ divisorRaise i s = none := by
    obtain rfl | rfl | rfl | ⟨rfl, hb⟩ := hi
    · exact ⟨rfl, nofun, rfl⟩
    · exact ⟨rfl, nofun, rfl⟩
    · exact ⟨rfl, nofun, rfl⟩
    · exact ⟨rfl, nofun, divisorRaise_div_of_ne_zero hb a⟩
  obtain ⟨hlen, hhalt, hdivisor⟩ := harith
  exact ⟨_, exec_of_length_three hlen hp hdivisor, execEffect_sameControl hhalt s⟩

end Sys2Proof.Machine
end

