-- ==== Sys2Proof/Proofs/OutputControl.lean ====
section
/-! The statements about PRN and HALT (44_output_and_control.md), neither of which has an operand byte. -/

namespace Sys2Proof.Machine

theorem execEffect_prn (s : State) :
    execEffect .prn s = { s with out := s.out ++ [s.readReg s.cr], pc := s.pc + 1 } := rfl

theorem execEffect_halt (s : State) : execEffect .halt s = { s with state := .halted, clkEn := false } := rfl

/-- PRN has no operand byte, so it completes in every state (R136). -/
theorem exec_prn (s : State) : exec .prn s = .next (execEffect .prn s) := rfl

/-- HALT has no operand byte, so it completes in every state (R141). -/
theorem exec_halt (s : State) : exec .halt s = .next (execEffect .halt s) := rfl

/-- At the byte 0x00 a fetch finds HALT, whatever bytes follow it. -/
theorem State.fetch_halt {s : State} (hp : s.pc.toNat < 256) (hop : s.readByte s.pc.toNat = Handler.halt.opcode) :
    s.fetch = .ok .halt := by
  have hdecode : decode s.fetchBytes = .ok (.halt, s.bytesFrom (s.pc.toNat + 1) 2) := by
    rw [State.fetchBytes, s.bytesFrom_below hp, hop, decode_opcode, decodeOperands]
  exact State.fetch_ok hdecode

/-- Settles O22: HALT ends the run, and the reset content of a cell, 0x00, is its opcode. -/
theorem haltStopsTheRun : Obligations.HaltStopsTheRun := by
  refine ⟨decode_opcode .halt, fun s => by rw [exec_halt, execEffect_halt], fun s t h => ?_,
    fun s hlive hp hunloaded => ?_⟩
  · rw [exec_halt] at h
    cases h
    have hended : (execEffect .halt s).ended := .inl (by simp)
    exact step_of_not_live (State.not_live_of_ended hended)
  · rw [State.readByte_reset] at hunloaded
    exact step_fetched (s.ticking_iff.2 hlive) (State.fetch_halt hp hunloaded)

/-- Settles O21: PRN leaves the run state alone, so from 255 the next tick executes at 256, and its fault entry keeps `out`. -/
theorem prnEmitsTheCurrentRegister : Obligations.PrnEmitsTheCurrentRegister := by
  refine ⟨decode_opcode .prn, fun s => by rw [exec_prn, execEffect_prn], fun s t hlive hpc h => ?_⟩
  rw [exec_prn] at h
  cases h
  have hlive' : (execEffect .prn s).live := by simpa [State.live] using hlive
  have hpc' : (execEffect .prn s).pc = 256 := by simp [Instr.pcAdvance, hpc]
  have hfault := (execEffect .prn s).faultsTo_outOfBounds none 256
  exact ⟨hpc', _, step_pastTop hlive' hpc', hfault.kind, hfault.out.trans (execEffect_out .prn s)⟩

end Sys2Proof.Machine
end

