-- ==== Sys2Proof/Proofs/Exceptions.lean ====
section
/-! The statements about the faults of a tick (60_exceptions.md): the order of its checks (R155), for which a fetch is told apart
by whether the bytes of its table row lie in memory, and fault entry as the whole effect of a tick that faults (R153). -/

namespace Sys2Proof

/-! Operand bytes, missing or present -/

/-- The first missing operand byte is the one after those there are (30_encoding.md R68). -/
theorem decodeOperands_missing {k : Handler} {bytes : List Byte} (h : bytes.length < k.format.operands) (op : Byte) :
    decodeOperands op k bytes = .error (.noOperand op (bytes.length + 1)) := by
  cases k with
  | halt | init | prn => cases h
  | set | save =>
    match bytes with
    | [] => rfl
    | _ :: _ => simp [Handler.format, Format.operands] at h
  | mul | sub | add | div =>
    match bytes with
    | [] | [_] => rfl
    | _ :: _ :: _ => simp [Handler.format, Format.operands] at h

/-- No operand byte has an illegal value, so enough of them make an instruction (30_encoding.md R63). -/
theorem decodeOperands_present {k : Handler} {bytes : List Byte} (h : k.format.operands ≤ bytes.length) (op : Byte) :
    ∃ i rest, decodeOperands op k bytes = .ok (i, rest) := by
  cases k with
  | halt | init | prn => exact ⟨_, _, rfl⟩
  | set | save =>
    match bytes with
    | [] => cases h
    | _ :: _ => exact ⟨_, _, rfl⟩
  | mul | sub | add | div =>
    match bytes with
    | [] | [_] => simp [Handler.format, Format.operands] at h
    | _ :: _ :: _ => exact ⟨_, _, rfl⟩

namespace Machine

theorem State.bytesFrom_length (s : State) (a n : Nat) : (s.bytesFrom a n).length = min n (256 - a) := by
  induction n generalizing a with
  | zero => simp [State.bytesFrom]
  | succ n ih =>
    by_cases ha : a < 256
    · rw [s.bytesFrom_below ha, List.length_cons, ih]
      omega
    · rw [s.bytesFrom_above (Nat.le_of_not_lt ha), List.length_nil]
      omega

/-- With its last operand byte past the top of memory, an instruction's first missing operand byte is at 256, whichever of its
operand bytes that is (R152). -/
theorem State.fetch_of_not_fits {s : State} {e : LutEntry} (hp : s.pc.toNat < 256)
    (he : lut (s.readByte s.pc.toNat) = some e) (h : 256 ≤ s.pc.toNat + e.operands) :
    s.fetch = .error (.outOfBounds (some (s.readByte s.pc.toNat)) 256) := by
  obtain ⟨hop, -, hn⟩ := lut_some he
  have hcount := s.bytesFrom_length (s.pc.toNat + 1) e.operands
  have hmissing : (s.bytesFrom (s.pc.toNat + 1) e.operands).length < e.handler.format.operands := by omega
  have haddr : s.pc.toNat + ((s.bytesFrom (s.pc.toNat + 1) e.operands).length + 1) = 256 := by omega
  rw [State.fetch_of_lut hp he, decodeOperands_missing hmissing, hop, ← haddr]
  rfl

/-- With all the bytes of its table row in memory, an instruction is fetched. -/
theorem State.fetch_of_fits {s : State} {e : LutEntry} (he : lut (s.readByte s.pc.toNat) = some e)
    (h : s.pc.toNat + e.length ≤ 256) : ∃ i, s.fetch = .ok i := by
  obtain ⟨-, hlen, hn⟩ := lut_some he
  have hcount := s.bytesFrom_length (s.pc.toNat + 1) e.operands
  have hpresent : e.handler.format.operands ≤ (s.bytesFrom (s.pc.toNat + 1) e.operands).length := by omega
  obtain ⟨i, rest, hd⟩ := decodeOperands_present hpresent e.handler.opcode
  rw [State.fetch_of_lut (by omega) he, hd]
  exact ⟨i, rfl⟩

/-- The divisor register of a DIV is the one its second operand byte names (43_arithmetic.md R130). -/
theorem State.fetch_div {s : State} (hp : s.pc.toNat ≤ 253) (hop : s.readByte s.pc.toNat = Handler.div.opcode) :
    s.fetch = .ok (.div (s.readByte (s.pc.toNat + 1)) (s.readByte (s.pc.toNat + 2))) := by
  have hdecode : decode s.fetchBytes =
      .ok (.div (s.readByte (s.pc.toNat + 1)) (s.readByte (s.pc.toNat + 2)), []) := by
    rw [State.fetchBytes, s.bytesFrom_below (by omega), s.bytesFrom_below (by omega), s.bytesFrom_below (by omega), hop,
      decode_opcode]
    rfl
  exact State.fetch_ok hdecode

/-! Ticks that fault and ticks that do not -/

/-- A handler that raises no fault does not lead to Faulted. -/
theorem execEffect_state_ne_faulted {s : State} (hs : s.state ≠ .faulted) (i : Instr) :
    (execEffect i s).state ≠ .faulted := by
  rw [execEffect_state]
  split
  · simp
  · exact hs

/-- Only fault entry leads a tick to Faulted (R153). -/
theorem step_faulted {s t : State} (hs : s.state ≠ .faulted) (h : step s = .next t) (ht : t.state = .faulted) :
    ∃ f, t = s.enterFault f := by
  obtain ⟨-, rfl⟩ | ⟨-, f, -, rfl⟩ | ⟨-, i, -, hx⟩ := step_cases h
  · exact absurd ht hs
  · exact ⟨f, rfl⟩
  · obtain ⟨f, -, rfl⟩ | ⟨-, rfl⟩ := exec_cases hx
    · exact ⟨f, rfl⟩
    · exact absurd ht (execEffect_state_ne_faulted hs i)

/-- A fetched DIV has its divisor at its second operand byte, so a divisor of 0 there is the last check to fail (R155). -/
theorem divisorRaise_of_fetch_ok {s : State} {i : Instr} (hf : s.fetch = .ok i)
    (hdivisor : s.readByte s.pc.toNat = 0x09 → s.readReg (s.readByte (s.pc.toNat + 2)) ≠ 0) :
    divisorRaise i s = none := by
  rw [divisorRaise_eq_none_iff]
  rintro ⟨a, b, rfl, hzero⟩
  have hop := (State.opcode_of_fetch_ok hf).2
  have hp : s.pc.toNat ≤ 253 := Nat.le_of_add_le_add_right (State.fits_of_fetch_ok hf)
  rw [State.fetch_div hp hop] at hf
  cases hf
  exact hdivisor hop hzero

/-- Settles O10: the fetch makes every check but the divisor's, and a handler that is reached and finds no zero divisor has its
effect. -/
theorem faultChecksInOrder : Obligations.FaultChecksInOrder := by
  rintro s _ _ hlive rfl rfl
  have hk := s.ticking_iff.2 hlive
  refine ⟨fun hp => step_raises hk (State.fetch_above hp), fun hp hop => step_raises hk (State.fetch_noHandler hp hop),
    fun e hp he hn => ?_, fun e hp he hn => ?_, fun hp hop hzero => ?_, fun e he hfits hdivisor => ?_⟩
  · exact step_raises hk (State.fetch_of_not_fits (by omega) he (by omega))
  · exact step_raises hk (State.fetch_of_not_fits (by omega) he (by omega))
  · have hf := State.fetch_div hp hop
    rw [step_fetched hk hf, exec_of_fits (State.fits_of_fetch_ok hf), divisorRaise_div_of_eq_zero hzero]
    rfl
  · obtain ⟨i, hf⟩ := State.fetch_of_fits he hfits
    have hrunning : s.state ≠ .faulted := by simp [hlive.1]
    rw [step_fetched hk hf, exec_of_fits (State.fits_of_fetch_ok hf), divisorRaise_of_fetch_ok hf hdivisor]
    exact ⟨_, rfl, execEffect_state_ne_faulted hrunning i, execEffect_fault i s⟩

/-- Settles O11: a tick that ends in Faulted is a fault entry, which keeps the rest by definition, and each of the three faults
has its record. -/
theorem faultEntryIsPrecise : Obligations.FaultEntryIsPrecise := by
  refine ⟨fun s t hlive hstep hfaulted => ?_, State.faultsTo_invalidInstruction, State.faultsTo_outOfBounds,
    State.faultsTo_divideByZero⟩
  have hrunning : s.state ≠ .faulted := by simp [hlive.1]
  obtain ⟨f, rfl⟩ := step_faulted hrunning hstep hfaulted
  exact ⟨rfl, f.record_kind_ne_none s.pc s.draws, f.record_pc s.pc s.draws, rfl, rfl, rfl, rfl, rfl, f, rfl⟩

end Machine
end Sys2Proof
end

