-- ==== Sys2Proof/Proofs/ResetAndHazards.lean ====
section
/-! The statement about the state reset leaves (70_reset_and_hazards.md). -/

namespace Sys2Proof.Machine

/-- Settles O45: `reset` replaces the state by the reset state but for `draws`; there a cell of the empty memory and every
register read 0, and the other fields are the constants of R176. -/
theorem resetValues : Obligations.ResetValues :=
  ⟨runCommand_reset, State.readByte_reset, State.readReg_reset, rfl, rfl, rfl, rfl, rfl, rfl⟩

end Sys2Proof.Machine
end

