-- ==== Sys2Proof/Proofs/RoundTrip.lean ====
section
/-! The statements about the decoder as a whole: it inverts the encoder (30_encoding.md sections 1 to 3, and the bytes of R69),
and its three reasons to reject, each with the bytes it is given for (section 4). -/

namespace Sys2Proof

/-! Decoding what was encoded -/

theorem decodeOperands_operandBytes (op : Byte) (i : Instr) (rest : List Byte) :
    decodeOperands op i.handler (i.operandBytes ++ rest) = .ok (i, rest) := by
  cases i <;> rfl

theorem decode_encode_append (i : Instr) (rest : List Byte) : decode (encode i ++ rest) = .ok (i, rest) :=
  (decode_opcode i.handler (i.operandBytes ++ rest)).trans (decodeOperands_operandBytes _ i rest)

/-- Settles O3: bytes that decode are an encoding and its rest, and such bytes decode back. -/
theorem decodeEncodeAgree : Obligations.DecodeEncodeAgree := by
  refine fun bytes rest i => ⟨eq_encode_of_decode_ok, ?_⟩
  rintro rfl
  exact decode_encode_append i rest

/-- Settles O1: the words of R69 are encodings, each followed by nothing. -/
theorem specWordsDecode : Obligations.SpecWordsDecode :=
  ⟨decode_encode_append .halt [], decode_encode_append .init [], decode_encode_append (.set 255) [],
    decode_encode_append (.save 8) [], decode_encode_append (.mul 0 1) [], decode_encode_append .prn [],
    decode_encode_append (.sub 0 1) [], decode_encode_append (.add 4 1) [], decode_encode_append (.div 2 3) []⟩

/-! Rejections -/

/-- The operands are rejected exactly when one is missing, the first missing one by its number (R68). -/
theorem decodeOperands_eq_error_iff {op : Byte} {k : Handler} {bytes : List Byte} {why : Reject} :
    decodeOperands op k bytes = .error why ↔
      bytes.length < k.format.operands ∧ why = .noOperand op (bytes.length + 1) := by
  obtain hmissing | hpresent := Nat.lt_or_ge bytes.length k.format.operands
  · simp [decodeOperands_missing hmissing, hmissing, eq_comm]
  · obtain ⟨i, rest, hd⟩ := decodeOperands_present hpresent op
    simp [hd, Nat.not_lt.2 hpresent]

/-- A list that is not empty is rejected for its first byte, or for the operand after the last byte it has (R67, R68). -/
theorem decode_cons_eq_error_iff {op : Byte} {tail : List Byte} {why : Reject} :
    decode (op :: tail) = .error why ↔
      (lut op = none ∧ why = .noHandler op) ∨
      (∃ e, lut op = some e ∧ tail.length < e.operands ∧ why = .noOperand op (tail.length + 1)) := by
  cases he : lut op with
  | none => simp [decode_noHandler he, eq_comm]
  | some e =>
    obtain ⟨hop, -, hn⟩ := lut_some he
    rw [hop, decode_opcode, decodeOperands_eq_error_iff, ← hop, ← hn]
    simp

/-- Only a first byte without handler is rejected for want of one, whatever follows it. -/
theorem decode_eq_noHandler_iff {bytes : List Byte} {op : Byte} :
    decode bytes = .error (.noHandler op) ↔ lut op = none ∧ ∃ rest, bytes = op :: rest := by
  cases bytes with
  | nil => simp [decode_nil]
  | cons first tail =>
    rw [decode_cons_eq_error_iff]
    constructor
    · rintro (⟨hnone, hop⟩ | ⟨e, -, -, hop⟩)
      · cases hop
        exact ⟨hnone, tail, rfl⟩
      · cases hop
    · rintro ⟨hnone, rest, hbytes⟩
      cases hbytes
      exact .inl ⟨hnone, rfl⟩

/-- An operand byte is missing exactly when the opcode takes it and the list ends right before it. -/
theorem decode_eq_noOperand_iff {bytes : List Byte} {op : Byte} {k : Nat} :
    decode bytes = .error (.noOperand op k) ↔
      ∃ e, lut op = some e ∧ ∃ args, bytes = op :: args ∧ args.length < e.operands ∧ k = args.length + 1 := by
  cases bytes with
  | nil => simp [decode_nil]
  | cons first tail =>
    rw [decode_cons_eq_error_iff]
    constructor
    · rintro (⟨-, hop⟩ | ⟨e, he, hmissing, hop⟩)
      · cases hop
      · cases hop
        exact ⟨e, he, tail, rfl, hmissing, rfl⟩
    · rintro ⟨e, he, args, hbytes, hmissing, rfl⟩
      cases hbytes
      exact .inr ⟨e, he, hmissing, rfl⟩

/-- Settles O4: no opcode takes more than two operands, so the list that ends too soon has no operand byte or one. -/
theorem decodeRejectsExactly : Obligations.DecodeRejectsExactly := by
  refine fun bytes => ⟨?_, fun op => decode_eq_noHandler_iff, fun op k => ?_⟩
  · cases bytes with
    | nil => simp [decode_nil]
    | cons op tail => simp [decode_cons_eq_error_iff]
  · rw [decode_eq_noOperand_iff]
    refine exists_congr fun e => and_congr_right fun he => ?_
    have htwo : e.operands ≤ 2 := (lut_some he).2.2 ▸ e.handler.format.operands_le
    constructor
    · rintro ⟨args, rfl, hmissing, rfl⟩
      match args with
      | [] => exact .inl ⟨rfl, rfl, hmissing⟩
      | [a] => exact .inr ⟨rfl, a, rfl, Nat.le_antisymm htwo hmissing⟩
      | _ :: _ :: _ => simp only [List.length_cons] at hmissing; omega
    · rintro (⟨rfl, rfl, hone⟩ | ⟨rfl, a, rfl, hall⟩)
      · exact ⟨[], rfl, hone, rfl⟩
      · exact ⟨[a], rfl, by simp [hall], rfl⟩

end Sys2Proof
end

