-- ==== Sys2Proof/Proofs/Frames.lean ====
section
/-! The statements about what the instructions leave alone (10_state.md section 3, 20_memory.md section 2). -/

namespace Sys2Proof.Machine

/-! Memory -/

/-- No handler stores (20_memory.md R49). -/
@[simp] theorem execEffect_mem (i : Instr) (s : State) : (execEffect i s).mem = s.mem := by
  cases i <;> rfl

theorem exec_mem {i : Instr} {s t : State} (h : exec i s = .next t) : t.mem = s.mem := by
  obtain ⟨f, -, rfl⟩ | ⟨-, rfl⟩ := exec_cases h
  · rfl
  · exact execEffect_mem i s

theorem step_mem {s t : State} (h : step s = .next t) : t.mem = s.mem := by
  obtain ⟨-, rfl⟩ | ⟨-, f, -, rfl⟩ | ⟨-, i, -, hx⟩ := step_cases h
  · rfl
  · rfl
  · exact exec_mem hx

/-- Settles O32: neither fault entry nor a handler stores. -/
theorem memoryNeverWritten : Obligations.MemoryNeverWritten :=
  fun _ _ h => ⟨step_mem h, State.readByte_congr (step_mem h)⟩

/-! When an instruction with operands faults -/

theorem firstOutOfRange_eq_none_iff {a n : Nat} (hn : n ≠ 0) : firstOutOfRange a n = none ↔ a + n ≤ 256 := by
  refine ⟨fun h => ?_, firstOutOfRange_none⟩
  induction n generalizing a with
  | zero => exact absurd rfl hn
  | succ n ih =>
    by_cases ha : a < 256
    · by_cases hn' : n = 0
      · omega
      · have := ih (a := a + 1) hn' (by simpa [firstOutOfRange, ha] using h)
        omega
    · simp [firstOutOfRange, ha] at h

/-- An instruction with operands raises no fault exactly when it lies in memory and has no zero divisor; this holds past the
top of memory too. -/
theorem execRaise_eq_none_iff {i : Instr} {s : State} (hargs : i.operandBytes.length ≠ 0) :
    execRaise i s = none ↔ s.pc.toNat + i.length ≤ 256 ∧ divisorRaise i s = none := by
  rw [execRaise, Option.or_eq_none_iff, Option.map_eq_none_iff, State.missingOperand,
    firstOutOfRange_eq_none_iff hargs, Instr.length, Nat.add_assoc]

/-- An instruction that raises no fault has its effect. -/
theorem eq_execEffect_of_execRaise {i : Instr} {s t : State} (h : exec i s = .next t) (hnone : execRaise i s = none) :
    t = execEffect i s := by
  rw [exec_eq, hnone] at h
  cases h
  rfl

/-- An instruction that raises a fault does nothing but enter it (60_exceptions.md R153). -/
theorem eq_enterFault_of_execRaise {i : Instr} {s t : State} (h : exec i s = .next t) (hraise : execRaise i s ≠ none) :
    ∃ f, t = s.enterFault f := by
  obtain ⟨f, -, rfl⟩ | ⟨hnone, -⟩ := exec_cases h
  · exact ⟨f, rfl⟩
  · exact absurd hnone hraise

/-! INIT and SET -/

/-- SET reaches no register and no output, whether it faults or not. -/
theorem exec_set_frame {s t : State} {i : Byte} (h : exec (.set i) s = .next t) :
    (∀ r, t.readReg r = s.readReg r) ∧ t.out = s.out := by
  obtain ⟨f, -, rfl⟩ | ⟨-, rfl⟩ := exec_cases h
  · exact ⟨fun _ => rfl, rfl⟩
  · exact ⟨fun _ => rfl, rfl⟩

/-- Settles O29: INIT has its effect, which writes `cr` and `pc`; SET has its own or enters a fault, by where its operand byte
lies. -/
theorem pointerInstructionsFrame : Obligations.PointerInstructionsFrame := by
  refine ⟨fun s t h => ?_, fun s t i h => ?_⟩
  · rw [exec_init] at h
    cases h
    exact ⟨fun _ => rfl, rfl, fun _ => rfl, execEffect_sameControl (i := .init) nofun s⟩
  · have hraise : execRaise (.set i) s = none ↔ s.pc.toNat + 2 ≤ 256 :=
      (execRaise_eq_none_iff (i := .set i) Nat.one_ne_zero).trans (and_iff_left rfl)
    obtain ⟨hreg, hout⟩ := exec_set_frame h
    refine ⟨hreg, hout, State.readByte_congr (exec_mem h), fun hp => ?_, fun hp => ?_⟩
    · rw [eq_execEffect_of_execRaise h (hraise.2 hp)]
      exact execEffect_sameControl (i := .set i) nofun s
    · obtain ⟨f, rfl⟩ := eq_enterFault_of_execRaise h fun hnone => by have := hraise.1 hnone; omega
      exact ⟨rfl, rfl⟩

/-! SAVE, MUL, SUB, ADD and DIV -/

/-- The five instructions whose result goes to the current register. -/
def WritesCur (i : Instr) (a b : Byte) : Prop :=
  i = .save a ∨ i = .mul a b ∨ i = .sub a b ∨ i = .add a b ∨ i = .div a b

section
variable {i : Instr} {a b : Byte}

/-- Their effect is one write of the current register and an advance. -/
theorem WritesCur.execEffect_eq (hi : WritesCur i a b) (s : State) :
    ∃ v w, execEffect i s = (s.writeCur v).advance w := by
  obtain rfl | rfl | rfl | rfl | rfl := hi <;> exact ⟨_, _, rfl⟩

theorem WritesCur.operandBytes_length_ne_zero (hi : WritesCur i a b) : i.operandBytes.length ≠ 0 := by
  obtain rfl | rfl | rfl | rfl | rfl := hi <;> simp [Instr.operandBytes]

theorem WritesCur.ne_halt (hi : WritesCur i a b) : i ≠ .halt := by
  obtain rfl | rfl | rfl | rfl | rfl := hi <;> exact nofun

theorem WritesCur.divisorRaise_eq_none_iff (hi : WritesCur i a b) (s : State) :
    divisorRaise i s = none ↔ (i = .div a b → s.readReg b ≠ 0) := by
  obtain rfl | rfl | rfl | rfl | rfl := hi <;> simp [divisorRaise]

/-- They reach no register but the current one, whether they fault or not. -/
theorem WritesCur.exec_frame (hi : WritesCur i a b) {s t : State} (h : exec i s = .next t) :
    (∀ r, r ≠ s.cr → t.readReg r = s.readReg r) ∧ t.cr = s.cr ∧ t.out = s.out := by
  obtain ⟨f, -, rfl⟩ | ⟨-, rfl⟩ := exec_cases h
  · exact ⟨fun _ _ => rfl, rfl, rfl⟩
  · obtain ⟨v, w, hv⟩ := hi.execEffect_eq s
    rw [hv]
    exact ⟨fun r hr => by rw [State.readReg_advance, State.readReg_writeCur, if_neg hr], rfl, rfl⟩

end

/-- Settles O30: an instruction in memory without a zero divisor has its effect, and any other enters a fault. -/
theorem registerWritersFrame : Obligations.RegisterWritersFrame := by
  intro s t a b i hi h
  replace hi : WritesCur i a b := hi
  have hraise : execRaise i s = none ↔ s.pc.toNat + i.length ≤ 256 ∧ (i = .div a b → s.readReg b ≠ 0) := by
    rw [execRaise_eq_none_iff hi.operandBytes_length_ne_zero, hi.divisorRaise_eq_none_iff]
  obtain ⟨hreg, hcr, hout⟩ := hi.exec_frame h
  refine ⟨hreg, hcr, hout, State.readByte_congr (exec_mem h), fun hfits hdivisor => ?_, fun hfault => ?_⟩
  · rw [eq_execEffect_of_execRaise h (hraise.2 ⟨hfits, hdivisor⟩)]
    exact execEffect_sameControl hi.ne_halt s
  · have hne : execRaise i s ≠ none := fun hnone => by
      obtain ⟨hfits, hdivisor⟩ := hraise.1 hnone
      obtain hfar | ⟨hdiv, hzero⟩ := hfault
      · omega
      · exact hdivisor hdiv hzero
    obtain ⟨f, rfl⟩ := eq_enterFault_of_execRaise h hne
    exact ⟨rfl, rfl⟩

/-! PRN and HALT -/

/-- Settles O31: both have their effect in every state. -/
theorem outputAndControlFrame : Obligations.OutputAndControlFrame := by
  refine ⟨fun s t h => ?_, fun s t h => ?_⟩
  · rw [exec_prn] at h
    cases h
    exact ⟨fun _ => rfl, rfl, execEffect_sameControl (i := .prn) nofun s, fun _ => rfl, List.prefix_append s.out _⟩
  · rw [exec_halt] at h
    cases h
    exact ⟨fun _ => rfl, rfl, rfl, rfl, rfl, fun _ => rfl⟩

end Sys2Proof.Machine
end

