-- ==== Sys2Proof/Proofs/Results.lean ====
section
/-! The statements about the values instructions compute: the rounding of a quotient (43_arithmetic.md R132), the registers a
result is computed from (10_state.md R26), and the text of an emitted word (44_output_and_control.md R137). -/

namespace Sys2Proof.Machine

/-! Quotients -/

/-- The quotient is the bit-vector one, under the signed reading. -/
theorem aluDiv_eq (u v : Word) : aluDiv u v = u.sdiv v :=
  BitVec.eq_of_toInt_eq (by rw [aluDiv, bits32, BitVec.toInt_ofInt, BitVec.toInt_sdiv])

/-- But for the most negative number over -1 the quotient fits 32 bits (R132, R133). -/
theorem aluDiv_toInt {u v : Word} (h : ¬ (u = 0x80000000 ∧ v = 0xFFFFFFFF)) :
    (aluDiv u v).toInt = u.toInt.tdiv v.toInt := by
  rw [aluDiv_eq]
  exact BitVec.toInt_sdiv_of_ne_or_ne u v (not_and_or.1 h)

theorem word_toInt_ne_zero {u : Word} (h : u ≠ 0) : u.toInt ≠ 0 := BitVec.toInt_ne.2 h

theorem aluDiv_self {u : Word} (h : u ≠ 0) : aluDiv u u = 1 := by
  rw [aluDiv, Int.tdiv_self (word_toInt_ne_zero h)]
  rfl

/-- Settles O24: in size the truncated quotient is the quotient of the sizes, rounded down. -/
theorem divRoundsTowardZero : Obligations.DivRoundsTowardZero := by
  intro u v hv hfits
  have hsize : (aluDiv u v).toInt.natAbs = u.toInt.natAbs / v.toInt.natAbs := by
    rw [aluDiv_toInt hfits]
    exact Int.natAbs_tdiv u.toInt v.toInt
  have hpos : 0 < v.toInt.natAbs := Int.natAbs_pos.2 (word_toInt_ne_zero hv)
  rw [hsize]
  refine ⟨aluDiv_toInt hfits, Nat.div_mul_le_self _ _, ?_⟩
  rw [Nat.mul_comm]
  exact Nat.lt_mul_div_succ _ hpos

/-- Settles O27: each result is a function of the registers before the write, and reading the current register after it gives
that result. -/
theorem sourcesReadBeforeDestination : Obligations.SourcesReadBeforeDestination := by
  intro s b hp
  refine ⟨⟨_, exec_of_length_three rfl hp rfl, ?_⟩, ⟨_, exec_of_length_three rfl hp rfl, ?_⟩,
    ⟨_, exec_of_length_three rfl hp rfl, ?_⟩,
    fun hne => ⟨_, exec_of_length_three rfl hp (divisorRaise_div_of_ne_zero hne s.cr), ?_⟩⟩ <;>
    rw [execEffect, State.readReg_combine_cr]
  · exact aluAdd_eq _ _
  · exact aluMul_eq _ _
  · exact aluSub_eq _ _
  · exact aluDiv_self hne

/-! The text of an emitted word -/

/-- A minus sign exactly when the word is negative, then the digits of its size (R137, decision D14). -/
theorem signedDecimal_eq (v : Word) :
    signedDecimal v = (if v.toInt < 0 then "-" else "") ++ toString v.toInt.natAbs := by
  unfold signedDecimal
  cases v.toInt with
  | ofNat n => simp [Int.toString_eq_repr, Int.repr, Int.not_lt.2 (Int.natCast_nonneg n)]
  | negSucc n => simp [Int.toString_eq_repr, Int.repr, Int.negSucc_lt_zero]

/-- Settles O28: the two words shown are evaluated, and the rule is `signedDecimal_eq`. -/
theorem emittedWordShownSigned : Obligations.EmittedWordShownSigned :=
  ⟨rfl, rfl, signedDecimal_eq⟩

end Sys2Proof.Machine
end

