-- ==== Sys2Proof/Proofs/Instructions.lean ====
section
/-! The statements that tie a tick to the bytes at the program counter (40_fetch_decode_execute.md section 1, 43_arithmetic.md
R115). -/

namespace Sys2Proof.Machine

/-- Settles O5: a fetch is the decoded instruction. -/
theorem stepRunsDecodedInstruction : Obligations.StepRunsDecodedInstruction :=
  fun s _ _ hlive hd => step_fetched (s.ticking_iff.2 hlive) (State.fetch_ok hd)

/-- Settles O12: no branch of a step stops the model. -/
theorem everyTickAnswers : Obligations.EveryTickAnswers := step_total

/-! Bytes placed in memory -/

theorem State.holdsAt_cons {s : State} {a : Nat} {v : Byte} {bytes : List Byte} (h : s.holdsAt a (v :: bytes)) :
    a < 256 ∧ s.readByte a = v ∧ s.holdsAt (a + 1) bytes := by
  obtain ⟨ha, hv⟩ := h 0 v rfl
  refine ⟨ha, hv, fun k b hb => ?_⟩
  rw [Nat.add_assoc, Nat.add_comm 1 k]
  exact h (k + 1) b hb

/-- Bytes that memory holds come first in what is read there. -/
theorem State.bytesFrom_of_holdsAt {s : State} {a : Nat} {bytes : List Byte} (h : s.holdsAt a bytes) {n : Nat}
    (hn : bytes.length ≤ n) : ∃ rest, s.bytesFrom a n = bytes ++ rest := by
  induction bytes generalizing a n with
  | nil => exact ⟨_, rfl⟩
  | cons v bytes ih =>
    obtain ⟨n, rfl⟩ := Nat.exists_eq_add_of_lt hn
    obtain ⟨ha, hv, htail⟩ := State.holdsAt_cons h
    obtain ⟨rest, hrest⟩ := ih htail (n := bytes.length + n) (by omega)
    exact ⟨rest, by rw [s.bytesFrom_below ha, hv, hrest]; rfl⟩

/-- Settles O6: no encoding is longer than what a tick reads, and decoding gives the instruction back. -/
theorem placedInstructionRuns : Obligations.PlacedInstructionRuns := by
  intro s i hlive hplaced
  have hlength : (encode i).length ≤ Config.maxLength := (encode_length i).trans_le i.length_le
  obtain ⟨rest, hbytes⟩ := State.bytesFrom_of_holdsAt hplaced hlength
  have hdecode : decode s.fetchBytes = .ok (i, rest) := by
    rw [State.fetchBytes, hbytes, decode_encode_append]
  exact stepRunsDecodedInstruction s i rest hlive hdecode

/-! An opcode in memory -/

/-- At a handler's opcode, with room for its operand bytes, a fetch finds the handler's instruction with those bytes. -/
theorem State.fetch_of_opcode {s : State} {k : Handler} (hop : s.readByte s.pc.toNat = k.opcode)
    (hfits : s.pc.toNat + 1 + k.format.operands ≤ 256) :
    ∃ i, s.fetch = .ok i ∧ i.handler = k ∧ i.operandBytes = s.bytesFrom (s.pc.toNat + 1) k.format.operands := by
  have hcount := s.bytesFrom_length (s.pc.toNat + 1) k.format.operands
  obtain ⟨i, rest, hd⟩ := decodeOperands_present (k := k)
    (bytes := s.bytesFrom (s.pc.toNat + 1) k.format.operands) (by omega) k.opcode
  obtain ⟨rfl, hbytes⟩ := decodeOperands_ok hd
  have hrest : rest = [] := by
    rw [hbytes, List.length_append, operandBytes_length] at hcount
    exact List.eq_nil_of_length_eq_zero (by omega)
  refine ⟨i, ?_, rfl, by rw [hbytes, hrest, List.append_nil]⟩
  rw [State.fetch_of_lut (by omega) (hop ▸ lut_opcode i.handler), hd]
  rfl

/-- Settles O23: the four have two operand bytes, so a fetch fails at 256 from 254 on and finds them below. -/
theorem arithmeticOperandFetches : Obligations.ArithmeticOperandFetches := by
  intro s k hlive hp hk hop
  have hticking := s.ticking_iff.2 hlive
  have htwo : k.format.operands = 2 := by obtain rfl | rfl | rfl | rfl := hk <;> rfl
  refine ⟨fun hnear => ?_, fun hfar => ?_⟩
  · have hfetch := State.fetch_of_not_fits hp (hop ▸ lut_opcode k) (by simp only [htwo]; omega)
    rw [hop] at hfetch
    exact ⟨_, step_raises hticking hfetch, s.faultsTo_outOfBounds (some k.opcode) 256⟩
  · obtain ⟨i, hfetch, hi, hbytes⟩ := State.fetch_of_opcode hop (by omega)
    rw [htwo, s.bytesFrom_below (by omega), s.bytesFrom_below (by omega)] at hbytes
    exact ⟨i, hi, hbytes, step_fetched hticking hfetch⟩

end Sys2Proof.Machine
end

