-- ==== Sys2Proof/Proofs/Invariant.lean ====
section
/-! The statements about the machine as a whole: the invariant at reset, under a tick and under the host's commands, and that
canonical memories are the same when they read the same (10_state.md sections 2, 4, 7 and 10). -/

namespace Sys2Proof.Machine

/-! Fault records that can arise -/

/-- A fetch from inside the range of `pc` fails with a legal record: `pc` past the top, no handler, or an operand past the
top (60_exceptions.md R151, R152). -/
theorem State.legal_of_fetch_error {s : State} {f : Raise} (hpc : s.pc.toNat ≤ 256) (hf : s.fetch = .error f) (n : Nat) :
    (f.record s.pc n).legal := by
  obtain hp | hp := Nat.lt_or_ge s.pc.toNat 256
  · cases he : lut (s.readByte s.pc.toNat) with
    | none =>
      rw [State.fetch_noHandler hp he] at hf
      cases hf
      exact ⟨hp, rfl, he, rfl⟩
    | some e =>
      obtain ⟨-, hlen, -⟩ := lut_some he
      have hmissing : 256 < s.pc.toNat + e.length := by
        by_contra hfits
        obtain ⟨i, hi⟩ := State.fetch_of_fits he (Nat.le_of_not_lt hfits)
        rw [hi] at hf
        cases hf
      rw [State.fetch_of_not_fits hp he (by omega)] at hf
      cases hf
      exact ⟨rfl, rfl, .inr ⟨rfl, e, he, hp, hmissing⟩⟩
  · have htop : s.pc.toNat = 256 := Nat.le_antisymm hpc hp
    rw [State.fetch_above hp, htop] at hf
    cases hf
    exact ⟨rfl, rfl, .inl ⟨BitVec.eq_of_toNat_eq htop, rfl⟩⟩

/-- A fetched instruction faults on a zero divisor alone, so it is a DIV with all its bytes in memory (R154). -/
theorem legal_of_execRaise {s : State} {i : Instr} {f : Raise} (hf : s.fetch = .ok i) (hraise : execRaise i s = some f)
    (n : Nat) : (f.record s.pc n).legal := by
  have hfits := State.fits_of_fetch_ok hf
  rw [execRaise_of_fetch_ok hf] at hraise
  obtain ⟨⟨a, b, rfl, -⟩, rfl⟩ := divisorRaise_eq_some_iff.1 hraise
  exact ⟨Nat.le_of_add_le_add_right hfits, rfl, rfl, rfl⟩

/-! What keeps the invariant -/

section
variable {s : State}

theorem State.Inv.resetCore (s : State) : s.resetCore.Inv where
  memWf := Memory.wf_nil
  pcRange := Nat.zero_le 256
  clockRuns := nofun
  faultLegal := rfl
  faultedIff := by simp [FaultRecord.clear]
  faultPc := nofun

theorem State.Inv.enterFault (h : s.Inv) {f : Raise} (hlegal : (f.record s.pc s.draws).legal) : (s.enterFault f).Inv where
  memWf := h.memWf
  pcRange := h.pcRange
  clockRuns := nofun
  faultLegal := hlegal
  faultedIff := by simp
  faultPc := fun _ => f.record_pc s.pc s.draws

/-- A change of memory, `pc`, run state and clock enable that stays in range and out of Faulted. -/
theorem State.Inv.of_not_faulted (h : s.Inv) (hs : s.state ≠ .faulted) {t : State} (hmem : t.mem.wf)
    (hpc : t.pc.toNat ≤ 256) (hclk : t.clkEn = true → t.state = .running) (hfault : t.fault = s.fault)
    (ht : t.state ≠ .faulted) : t.Inv where
  memWf := hmem
  pcRange := hpc
  clockRuns := hclk
  faultLegal := hfault ▸ h.faultLegal
  faultedIff := by rw [hfault, ← h.faultedIff]; exact iff_of_false ht hs
  faultPc := fun hf => absurd hf ht

/-- The effect of a fetched instruction: its advance ends at 256 at the latest. -/
theorem State.Inv.execEffect (h : s.Inv) (hs : s.state = .running) {i : Instr} (hf : s.fetch = .ok i) :
    (execEffect i s).Inv := by
  have hrunning : s.state ≠ .faulted := by simp [hs]
  refine h.of_not_faulted hrunning (by simpa using h.memWf) ?_ ?_ (execEffect_fault i s)
    (execEffect_state_ne_faulted hrunning i)
  · have hfits := State.fits_of_fetch_ok hf
    rw [execEffect_pc_toNat (State.opcode_of_fetch_ok hf).1, Instr.pcAdvance_eq]
    split <;> omega
  · rw [execEffect_clkEn, execEffect_state]
    split
    · exact nofun
    · exact fun _ => hs

theorem State.Inv.startRun (h : s.Inv) : s.startRun.Inv := by
  cases hs : s.state with
  | idle =>
    rw [s.startRun_idle hs]
    exact h.of_not_faulted (by simp [hs]) h.memWf h.pcRange (fun _ => rfl) rfl nofun
  | running =>
    rw [s.startRun_running hs]
    exact h.of_not_faulted (by simp [hs]) h.memWf h.pcRange (fun _ => hs) rfl (by simp [hs])
  | halted => rwa [s.startRun_halted hs]
  | faulted => rwa [s.startRun_faulted hs]

theorem State.Inv.stopRun (h : s.Inv) : s.stopRun.Inv :=
  { h with clockRuns := nofun }

theorem State.Inv.storeByte (h : s.Inv) {a : Nat} (ha : a < 256) (v : Byte) : (s.storeByte a v).Inv :=
  { h with memWf := State.storeByte_wf h.memWf ha v }

/-- Every branch of a tick keeps the invariant. -/
theorem State.Inv.step (h : s.Inv) {t : State} (hstep : step s = .next t) : t.Inv := by
  obtain ⟨-, rfl⟩ | ⟨-, f, hf, rfl⟩ | ⟨hk, i, hf, hx⟩ := step_cases hstep
  · exact h
  · exact h.enterFault (State.legal_of_fetch_error h.pcRange hf s.draws)
  · obtain ⟨f, hraise, rfl⟩ | ⟨-, rfl⟩ := exec_cases hx
    · exact h.enterFault (legal_of_execRaise hf hraise s.draws)
    · exact h.execEffect (s.ticking_iff.1 hk).1 hf

theorem State.Inv.runCommand (h : s.Inv) {t : State} {c : Command} {r : Reply} (hrun : runCommand c s = .next (t, r)) :
    t.Inv := by
  cases c with
  | start => cases hrun; exact h.startRun
  | stop => cases hrun; exact h.stopRun
  | tick => exact h.step (runCommand_tick hrun).1
  | poke a v =>
    obtain ⟨-, ⟨ha, rfl, -⟩ | ⟨-, rfl, -⟩⟩ := runCommand_poke hrun
    · exact h.storeByte ha v
    · exact h
  | peek a => rwa [(runCommand_peek hrun).1]
  | reset => cases hrun; exact State.Inv.resetCore s

end

/-- Settles O50: the reset state is what reset makes of itself. -/
theorem invariantAtReset : Obligations.InvariantAtReset := State.Inv.resetCore State.reset

/-- Settles O51: by the branches of a step. -/
theorem stepKeepsInvariant : Obligations.StepKeepsInvariant := fun _ _ h => h.step

/-- Settles O52: every single command keeps the invariant. -/
theorem commandsKeepInvariant : Obligations.CommandsKeepInvariant :=
  fun _ _ _ hs h => runCommands_induction (fun _ _ _ _ _ hu hv => State.Inv.runCommand hu hv) hs h

/-! Canonical memories -/

theorem Memory.read_head (c : Host.Cell) (m : Memory) : Memory.read (c :: m) c.1 = c.2 := if_pos rfl

theorem Memory.read_tail {c : Host.Cell} {a : Nat} (h : a ≠ c.1) (m : Memory) :
    Memory.read (c :: m) a = Memory.read m a := if_neg h

/-- The first cell of a canonical memory is not 0x00, so another memory that reads the same there lists a cell no higher. -/
theorem Memory.exists_le_of_read_eq {c : Host.Cell} {m n : Memory} (hm : Memory.wf (c :: m))
    (hread : Memory.read (c :: m) c.1 = Memory.read n c.1) : ∃ d ∈ n, d.1 ≤ c.1 := by
  by_contra habove
  push Not at habove
  obtain ⟨-, -, hne, -⟩ := Memory.wf_cons.1 hm
  rw [Memory.read_head, Memory.read_below habove] at hread
  exact hne hread

/-- Of two canonical memories that read the same, neither begins at a higher address. -/
theorem Memory.head_le_of_read_eq {c d : Host.Cell} {m n : Memory} (hm : Memory.wf (c :: m)) (hn : Memory.wf (d :: n))
    (hread : Memory.read (c :: m) c.1 = Memory.read (d :: n) c.1) : d.1 ≤ c.1 := by
  obtain ⟨e, he, hle⟩ := Memory.exists_le_of_read_eq hm hread
  obtain rfl | he := List.mem_cons.1 he
  · exact hle
  · exact (((Memory.wf_cons.1 hn).1 e he).trans_le hle).le

/-- The rests of two canonical memories with the same first address read the same if the memories do. -/
theorem Memory.read_tails_eq {c d : Host.Cell} {m n : Memory} (hm : Memory.wf (c :: m)) (hn : Memory.wf (d :: n))
    (haddr : c.1 = d.1) (hread : ∀ a, Memory.read (c :: m) a = Memory.read (d :: n) a) (a : Nat) :
    Memory.read m a = Memory.read n a := by
  by_cases ha : a = c.1
  · rw [ha, Memory.read_below (Memory.wf_cons.1 hm).1, haddr, Memory.read_below (Memory.wf_cons.1 hn).1]
  · rw [← Memory.read_tail ha, hread a, Memory.read_tail (haddr ▸ ha)]

/-- Settles O49, by induction on one list: the first cells have the same address, hence the same byte, and the rests read the
same. -/
theorem canonicalMemoriesAgree : Obligations.CanonicalMemoriesAgree := by
  intro m
  induction m with
  | nil =>
    rintro (_ | ⟨d, n⟩) - hn hread
    · rfl
    · obtain ⟨e, he, -⟩ := Memory.exists_le_of_read_eq hn (hread d.1).symm
      cases he
  | cons c m ih =>
    rintro (_ | ⟨d, n⟩) hm hn hread
    · obtain ⟨e, he, -⟩ := Memory.exists_le_of_read_eq hm (hread c.1)
      cases he
    · obtain ⟨-, -, -, hm'⟩ := Memory.wf_cons.1 hm
      obtain ⟨-, -, -, hn'⟩ := Memory.wf_cons.1 hn
      have haddr : c.1 = d.1 := Nat.le_antisymm (Memory.head_le_of_read_eq hn hm (hread d.1).symm)
        (Memory.head_le_of_read_eq hm hn (hread c.1))
      have hbyte : c.2 = d.2 := by rw [← Memory.read_head c m, hread, haddr, Memory.read_head]
      have hrest : m = n := ih n hm' hn' (Memory.read_tails_eq hm hn haddr hread)
      rw [Prod.ext haddr hbyte, hrest]

end Sys2Proof.Machine
end

