-- ==== Sys2Proof/Proofs/Termination.lean ====
section
/-! The statement that a run that is ticked ends (40_fetch_decode_execute.md section 4): an executing tick ends the run or moves
`pc` up, and `pc` never passes 256. -/

namespace Sys2Proof.Machine

/-- An executing tick ends the run, or leaves it live at a higher `pc` of at most 256. -/
theorem step_ended_or_advances {s t : State} (hlive : s.live) (h : step s = .next t) :
    t.ended ∨ (t.live ∧ s.pc.toNat < t.pc.toNat ∧ t.pc.toNat ≤ 256) := by
  obtain ⟨hk, -⟩ | ⟨-, f, -, rfl⟩ | ⟨-, i, hf, hx⟩ := step_cases h
  · rw [s.ticking_iff.2 hlive] at hk
    cases hk
  · exact .inl (.inr rfl)
  · obtain ⟨f, -, rfl⟩ | ⟨-, rfl⟩ := exec_cases hx
    · exact .inl (.inr rfl)
    · by_cases hi : i = .halt
      · exact .inl (.inl (by simp [hi]))
      · have hpos := i.length_pos
        have hfits := State.fits_of_fetch_ok hf
        have hpc := execEffect_pc_toNat (State.opcode_of_fetch_ok hf).1 i
        rw [Instr.pcAdvance_eq, if_neg hi] at hpc
        exact .inr ⟨by simpa [State.live, hi] using hlive, by omega, by omega⟩

theorem run_succ {s t : State} (h : step s = .next t) (n : Nat) :
    Host.Core.run Sys2Proof.core (n + 1) s = Host.Core.run Sys2Proof.core n t := by
  have hcore : Sys2Proof.core.step s = .next t := h
  simp only [Host.Core.run, hcore]

/-- Settles O53, by induction on how far `pc` is from the top. -/
theorem runEndsWithin257Ticks : Obligations.RunEndsWithin257Ticks := by
  intro s hlive hpc
  induction hgap : 256 - s.pc.toNat using Nat.strong_induction_on generalizing s with
  | _ gap ih =>
    obtain ⟨t, hstep⟩ := step_total s
    obtain hended | ⟨hlive', hup, hpc'⟩ := step_ended_or_advances hlive hstep
    · exact ⟨1, t, by omega, run_succ hstep 0, hended⟩
    · obtain ⟨n, u, hn, hrun, hended⟩ := ih (256 - t.pc.toNat) (by omega) t hlive' hpc' rfl
      exact ⟨n + 1, u, by omega, (run_succ hstep n).trans hrun, hended⟩

end Sys2Proof.Machine
end

