-- ==== Sys2Proof/Proofs/HostReach.lean ====
section
/-! The statements about what the host's commands reach: a faulted core (60_exceptions.md section 1), one memory cell (R165,
R166), no register (10_state.md sections 3, 5 and 10), and the boot order (70_reset_and_hazards.md R178). -/

namespace Sys2Proof.Machine

/-! A faulted core -/

/-- Of a core whose run has ended, commands other than reset reach memory and the clock enable alone. -/
theorem runCommand_frame_of_ended {s t : State} {c : Command} {r : Reply} (hended : s.ended) (hreset : c ≠ .reset)
    (h : runCommand c s = .next (t, r)) : t = { s with mem := t.mem, clkEn := t.clkEn } := by
  by_cases hstart : c = .start
  · subst hstart
    rw [runCommand_start, State.startRun_of_ended hended] at h
    cases h
    rfl
  · exact runCommand_frame hstart hreset (fun htick => State.not_live_of_ended hended htick.2) h

theorem runCommands_frame_of_ended {s t : State} {cs : List Command} (hended : s.ended) (hreset : .reset ∉ cs)
    (h : runCommands cs s = .next t) : ∃ (m : Memory) (b : Bool), t = { s with mem := m, clkEn := b } := by
  refine runCommands_induction (P := fun u => ∃ (m : Memory) (b : Bool), u = { s with mem := m, clkEn := b })
    (fun c hc u v r hu hv => ?_) ⟨s.mem, s.clkEn, rfl⟩ h
  obtain ⟨m, b, rfl⟩ := hu
  exact ⟨v.mem, v.clkEn, runCommand_frame_of_ended (s := { s with mem := m, clkEn := b }) hended
    (ne_of_mem_of_not_mem hc hreset) hv⟩

/-- Settles O38: memory and the clock enable, which are all that is reached, are not among the fields named. -/
theorem faultKeptUntilReset : Obligations.FaultKeptUntilReset := by
  intro s t cs hfaulted hreset h
  obtain ⟨m, b, rfl⟩ := runCommands_frame_of_ended (.inr hfaulted) hreset h
  exact ⟨hfaulted, rfl, rfl, rfl, rfl, rfl⟩

/-! Pokes and registers -/

/-- Settles O41: a `poke` that is admitted and in range is one write to the memory list. -/
theorem pokeCommand_spec : Obligations.PokeCommand := by
  intro s a v hwf
  refine ⟨fun hs => runCommand_poke_running hs a v, fun hs ha => runCommand_poke_above hs ha v, fun hs ha => ?_⟩
  exact ⟨Memory.write s.mem a v, runCommand_poke_below hs ha v, Memory.write_wf hwf ha v, Memory.read_write hwf a v⟩

/-- Settles O44: `start` sets the run state and the clock enable, and the others reach memory and the clock enable alone. -/
theorem hostReachesNoRegister : Obligations.HostReachesNoRegister := by
  intro s t c r htick hreset h
  by_cases hstart : c = .start
  · subst hstart
    cases h
    exact ⟨s.startRun_x, s.startRun_pc, s.startRun_cr, s.startRun_out, s.startRun_fault⟩
  · rw [runCommand_frame hstart hreset (fun hlive => htick hlive.1) h]
    exact ⟨rfl, rfl, rfl, rfl, rfl⟩

/-! The boot order -/

theorem State.storeBytes_cons (s : State) {a : Nat} (ha : a < 256) (v : Byte) (bytes : List Byte) :
    s.storeBytes a (v :: bytes) = (s.storeByte a v).storeBytes (a + 1) bytes := if_pos ha

/-- Stored bytes reach memory alone. -/
theorem State.storeBytes_eq (s : State) (a : Nat) (bytes : List Byte) :
    s.storeBytes a bytes = { s with mem := (s.storeBytes a bytes).mem } := by
  induction bytes generalizing s a with
  | nil => rfl
  | cons v bytes ih =>
    simp only [State.storeBytes]
    split
    · exact ih (s.storeByte a v) (a + 1)
    · rfl

/-- A byte read after bytes were stored: the stored one from their address on, as far as they go, and else the old one. -/
theorem State.readByte_storeBytes {s : State} (hm : s.mem.wf) {a : Nat} {bytes : List Byte}
    (h : a + bytes.length ≤ 256) (k : Nat) :
    (s.storeBytes a bytes).readByte k = if a ≤ k then (bytes[k - a]?).getD (s.readByte k) else s.readByte k := by
  induction bytes generalizing s a with
  | nil => simp [State.storeBytes]
  | cons v bytes ih =>
    rw [List.length_cons] at h
    have ha : a < 256 := by omega
    rw [s.storeBytes_cons ha, ih (State.storeByte_wf hm ha v) (by omega), State.readByte_storeByte hm]
    obtain hlt | rfl | hgt := Nat.lt_trichotomy k a
    · simp [Nat.not_le.2 hlt, Nat.ne_of_lt hlt, Nat.not_le.2 (Nat.lt_succ_of_lt hlt)]
    · simp
    · have hsub : k - a = k - (a + 1) + 1 := by omega
      simp [hsub, hgt.le, Nat.succ_le_of_lt hgt, Nat.ne_of_gt hgt]

/-- Outside Running the Loader's pokes store its bytes (R178, R184). -/
theorem runCommands_load {s : State} (hs : s.state ≠ .running) {a : Nat} {bytes : List Byte}
    (h : a + bytes.length ≤ 256) (cs : List Command) :
    runCommands (loadCommands a bytes ++ cs) s = runCommands cs (s.storeBytes a bytes) := by
  induction bytes generalizing s a with
  | nil => rfl
  | cons v bytes ih =>
    rw [List.length_cons] at h
    have ha : a < 256 := by omega
    rw [s.storeBytes_cons ha, ← ih (s := s.storeByte a v) hs (by omega)]
    simp only [loadCommands, List.cons_append, runCommands, runCommand_poke_below hs ha]

/-- The boot order is a reset, the bytes stored from address 0, and `start`. -/
theorem boot_eq (s : State) {bytes : List Byte} (h : bytes.length ≤ 256) :
    boot bytes s = .next (s.resetCore.storeBytes 0 bytes).startRun := by
  have hfits : programFits bytes = true := decide_eq_true h
  rw [boot, if_pos hfits]
  exact runCommands_load (s := s.resetCore) nofun (by omega) [.start]

/-- After the load `start` finds the core Idle, and all but memory as reset left it (R176, R177). -/
theorem State.startRun_loaded (s : State) (bytes : List Byte) : (s.resetCore.storeBytes 0 bytes).startRun =
    { State.reset with
      mem := (s.resetCore.storeBytes 0 bytes).mem, state := .running, clkEn := true, draws := s.draws } := by
  rw [State.storeBytes_eq]
  rfl

/-- Settles O46: the program is read back from the canonical empty memory of reset, in which every other cell is 0x00. -/
theorem bootLoadsAndStarts : Obligations.BootLoadsAndStarts := by
  refine ⟨fun s bytes h => ?_, fun s bytes h => ?_⟩
  · have hboot := boot_eq s h
    rw [State.startRun_loaded] at hboot
    refine ⟨_, hboot, fun k => ?_, rfl, rfl⟩
    have hread := State.readByte_storeBytes (s := s.resetCore) Memory.wf_nil (a := 0) (bytes := bytes) (by omega) k
    rwa [if_pos k.zero_le] at hread
  · have hlong : programFits bytes = false := decide_eq_false (Nat.not_le.2 h)
    rw [boot, hlong]
    rfl

end Sys2Proof.Machine
end

