-- ==== Sys2Proof/Proofs/Signals.lean ====
section
/-! The statements about the signals (40_fetch_decode_execute.md R96): what the outputs show of an act, and which command the
inputs ask for. -/

namespace Sys2Proof.Machine

/-! The emit signal -/

theorem emitted_eq_none {s t : State} (h : t.out = s.out) : emitted s t = none := by
  simp [emitted, h]

theorem emitted_eq_some {s t : State} {v : Word} (h : t.out = s.out ++ [v]) : emitted s t = some v := by
  simp [emitted, h]

theorem eq_prn_of_handler_eq {i : Instr} (h : i.handler = .prn) : i = .prn := by
  cases i with
  | prn => rfl
  | _ => cases h

/-- An executing tick at the byte 0x06 appends the current register to `out`. -/
theorem step_out_of_prn {s t : State} (hlive : s.live) (hp : s.pc.toNat < 256) (hop : s.readByte s.pc.toNat = 0x06)
    (h : step s = .next t) : t.out = s.out ++ [s.readReg s.cr] := by
  obtain ⟨i, hfetch, hi, -⟩ := State.fetch_of_opcode (k := .prn) hop hp
  rw [step_fetched (s.ticking_iff.2 hlive) hfetch, eq_prn_of_handler_eq hi, exec_prn] at h
  cases h
  exact execEffect_out .prn s

/-- Every other tick leaves `out` alone. -/
theorem step_out_of_not_prn {s t : State} (hno : ¬ (s.live ∧ s.pc.toNat < 256 ∧ s.readByte s.pc.toNat = 0x06))
    (h : step s = .next t) : t.out = s.out :=
  (step_out h).resolve_right fun ⟨hlive, hf, _⟩ => hno ⟨hlive, State.opcode_of_fetch_ok hf⟩

/-- Commands other than a tick emit nothing: reset clears `out`, and the others leave it alone. -/
theorem emitted_of_ne_tick {s t : State} {c : Command} {r : Reply} (hc : c ≠ .tick) (h : runCommand c s = .next (t, r)) :
    emitted s t = none := by
  by_cases hreset : c = .reset
  · subst hreset
    cases h
    simp [emitted]
  · obtain ⟨-, -, -, hout, -⟩ := hostReachesNoRegister s t c r hc hreset h
    exact emitted_eq_none hout

/-- Settles O47: the emit signal is the growth of `out`, and every other signal is a field of the state after the act. -/
theorem pinsShowTheTick : Obligations.PinsShowTheTick := by
  refine ⟨fun s t h => ⟨fun hlive hp hop => ?_, fun hno => ?_⟩, fun s t c r hc h => emitted_of_ne_tick hc h,
    fun s t r => ⟨rfl, rfl, rfl, rfl, rfl, rfl, rfl, rfl⟩, fun _ _ _ => rfl, fun _ _ => ⟨rfl, rfl⟩,
    rfl, rfl, rfl, rfl, rfl, rfl, rfl, rfl⟩
  · exact emitted_eq_some (step_out_of_prn hlive hp hop h)
  · exact emitted_eq_none (step_out_of_not_prn hno h)

/-! The acts asked for -/

theorem length_strobe (b : Bool) (c : Command) : (if b then [c] else []).length = b.toNat := by
  cases b <;> rfl

/-- As many acts are asked for as strobes are asserted. -/
theorem PinsIn.acts_length (p : PinsIn) : p.acts.length =
    p.rst.toNat + p.tick.toNat + p.start.toNat + p.stop.toNat + p.hostWrEn.toNat + p.hostRdEn.toNat := by
  simp only [PinsIn.acts, List.length_append, length_strobe]

theorem clockPins_none {p : PinsIn} (hp : p.acts = []) (s : State) : clockPins p s = .next (s, pinsOut s s .done) := by
  simp [clockPins, hp]

theorem clockPins_admitted {p : PinsIn} {s t : State} {c : Command} {r : Reply} (hp : p.acts = [c])
    (h : runCommand c s = .next (t, r)) : clockPins p s = .next (t, pinsOut s t r) := by
  simp [clockPins, hp, h]

theorem clockPins_refused {p : PinsIn} {s : State} {c : Command} {why : Refusal} (hp : p.acts = [c])
    (h : runCommand c s = .refused why) : clockPins p s = .refused why := by
  simp [clockPins, hp, h]

/-- Two acts at once get no step (R87, R188; log entry 10). -/
theorem clockPins_simultaneous {p : PinsIn} (h : 2 ≤ p.acts.length) (s : State) :
    clockPins p s = .refused .simultaneousActs := by
  unfold clockPins
  split
  · next hp => simp [hp] at h
  · next c hp => simp [hp] at h
  · rfl

/-- Settles O48: the single strobes are evaluated, and a moment at the signals goes by the number of acts. -/
theorem oneActAtATime : Obligations.OneActAtATime := by
  refine ⟨fun _ _ => ⟨rfl, rfl, rfl, rfl, rfl, rfl, rfl⟩, fun p s => ?_⟩
  refine ⟨p.acts_length, fun hp => clockPins_none hp s, fun _ _ _ => clockPins_admitted, fun _ _ => clockPins_refused,
    fun htwo => clockPins_simultaneous ?_ s⟩
  rwa [p.acts_length]

end Sys2Proof.Machine
end
